-- ==== Sys2Proof/Word.lean ====
section
/-! DEFINITION. The bit-vector types of the BCD core: bytes, nibbles, command words and the carrier of data words. -/

namespace Sys2Proof

/-- One byte of a text buffer (20_memory.md R40). -/
abbrev Byte := BitVec 8

/-- One 4-bit nibble of a word, or a 4-bit field of a command word (00_scope.md R11, 30_encoding.md R61). -/
abbrev Nibble := BitVec 4

/-- The 16-bit command word of a request (30_encoding.md R60). -/
abbrev CmdWord := BitVec 16

/-- The carrier of a data word. DESIGN CHOICE (log 2), safe: a word of W bits, for W = 8, 16, 32 or 64, is held in
64 bits with the bits from W up zero; operands are read through `Word.trunc`, so higher carrier bits never act. -/
abbrev Word := BitVec 64

/-- The low `bits` bits of a carrier, the rest zero. -/
def Word.trunc (bits : Nat) (x : Word) : Word := BitVec.ofNat 64 (x.toNat % 2 ^ bits)

end Sys2Proof
end

