-- ==== Sys2Proof/Config.lean ====
section
/-! DEFINITION. What is fixed when the hardware is built (the storage width), and the free values of the spec. -/

namespace Sys2Proof

/-- The storage width W, the one build-time parameter: 8, 16, 32 or 64 bits (00_scope.md R6; 90_conflicts.md C8). -/
inductive Width where
  | w8
  | w16
  | w32
  | w64
  deriving DecidableEq, Repr

/-- W in bits (R6). -/
def Width.bits : Width → Nat
  | .w8 => 8
  | .w16 => 16
  | .w32 => 32
  | .w64 => 64

/-- D = W / 4, derived and never set independently (00_scope.md R7). -/
def Width.digits (w : Width) : Nat := w.bits / 4

/-- 10^D, the overflow threshold (R7). -/
def Width.limit (w : Width) : Nat := 10 ^ w.digits

namespace Config

/-- The width of the machine that `State.reset` describes. DESIGN CHOICE (log 1), unsafe for claims about
`State.reset` alone: the spec leaves W open (D2); every claim over all states holds at all four widths. -/
def resetWidth : Width := .w64

/-- `draw_W()` of 00_scope.md R12: the free word number n. It has no body; a draw takes its low W bits (log 3). -/
opaque freeWord : Nat → Word

/-- `draw_byte()` of R12: the free byte number n (log 3). -/
opaque freeByte : Nat → Byte

/-- `draw_nat()` of R12: the free natural number n (log 3). -/
opaque freeCount : Nat → Nat

end Config

end Sys2Proof
end

