-- ==== Sys2Proof/Syntax.lean ====
section
/-! DEFINITION. The instructions: one constructor per row of spec/opcode_table.json. -/

namespace Sys2Proof

/-- The nine commands of BCDU-16 (30_encoding.md R64). The codec commands carry the fields of format C (R62): the
digit index `i` (CMD.IDX) and, for DSET, the nibble `n` (CMD.NIB). Data operands travel beside the command word. -/
inductive Instr where
  /-- DGET: extract digit i (40_digit_codec.md R81). -/
  | dget (i : Nibble)
  /-- DSET: write nibble n at digit i (R82). -/
  | dset (i : Nibble) (n : Nibble)
  /-- DVAL: is digit i in 0..9 (R83). -/
  | dval (i : Nibble)
  /-- B2BCD: binary to BCD (41_binary_bcd.md R90). -/
  | b2bcd
  /-- BCD2B: BCD to binary (R91). -/
  | bcd2b
  /-- S2BCD: decimal text to BCD (42_text.md R101). -/
  | s2bcd
  /-- BCD2S: BCD to decimal text (R104). -/
  | bcd2s
  /-- BADD: BCD addition (43_arithmetic.md R121). -/
  | badd
  /-- BMUL: BCD multiplication (R123). -/
  | bmul
  deriving DecidableEq, Repr

end Sys2Proof
end

