-- ==== Sys2Proof/WellFormed.lean ====
section
/-! DEFINITION. Which instructions have a meaning at a given width: the digit index is below D. -/

namespace Sys2Proof

/-- A digit index names a digit of the word: i < D (30_encoding.md R66). -/
def indexInRange (w : Width) (i : Nibble) : Bool := decide (i.toNat < w.digits)

/-- Well-formed at width W: a format-C command's index is below D. Every nibble value is allowed (R63). -/
def wellFormed (w : Width) : Instr → Bool
  | .dget i => indexInRange w i
  | .dset i _ => indexInRange w i
  | .dval i => indexInRange w i
  | .b2bcd => true
  | .bcd2b => true
  | .s2bcd => true
  | .bcd2s => true
  | .badd => true
  | .bmul => true

end Sys2Proof
end

