-- ==== Sys2Proof/Decode.lean ====
section
/-! DEFINITION. The command decoder, total on all 65 536 words and refusing by name, and the encoder. -/

namespace Sys2Proof

/-- Why a command word is refused by the decoder (30_encoding.md R65, R66; 60_exceptions.md R147). -/
inductive DecodeRefusal where
  /-- OP is 0x0 or 0xA..0xF (R65(a)). -/
  | reservedOpcode
  /-- A field that must be zero is not (R65(b), (c), (d)). -/
  | reservedField
  /-- A format-C word whose IDX is at least D (R66). -/
  | indexRange
  deriving DecidableEq, Repr

/-- CMD.OP = CMD[3:0] (R61). -/
def opField (c : CmdWord) : Nibble := c.extractLsb' 0 4

/-- CMD.IDX = CMD[7:4] (R61). -/
def idxField (c : CmdWord) : Nibble := c.extractLsb' 4 4

/-- CMD.NIB = CMD[11:8] (R61). -/
def nibField (c : CmdWord) : Nibble := c.extractLsb' 8 4

/-- CMD.RSV = CMD[15:12], reserved (R61). -/
def rsvField (c : CmdWord) : Nibble := c.extractLsb' 12 4

/-- Format C with the NIB field in use (R62): RSV must be zero. DSET is the only command of this shape. -/
def formatC (c : CmdWord) (mk : Nibble → Nibble → Instr) : Except DecodeRefusal Instr :=
  if rsvField c ≠ 0 then .error .reservedField else .ok (mk (idxField c) (nibField c))

/-- Format C of DGET and DVAL (R62, R65(b), (c)): RSV and NIB must be zero. -/
def formatCNoNib (c : CmdWord) (mk : Nibble → Instr) : Except DecodeRefusal Instr :=
  if rsvField c ≠ 0 then .error .reservedField
  else if nibField c ≠ 0 then .error .reservedField
  else .ok (mk (idxField c))

/-- Format W (R62, R65(b), (d)): every field but OP must be zero. -/
def formatW (c : CmdWord) (i : Instr) : Except DecodeRefusal Instr :=
  if rsvField c ≠ 0 then .error .reservedField
  else if nibField c ≠ 0 ∨ idxField c ≠ 0 then .error .reservedField
  else .ok i

/-- The checks of R65 in their order: the opcode first, then the fields that must be zero. -/
def decodeFields (c : CmdWord) : Except DecodeRefusal Instr :=
  match (opField c).toNat with
  | 1 => formatCNoNib c .dget
  | 2 => formatC c .dset
  | 3 => formatCNoNib c .dval
  | 4 => formatW c .b2bcd
  | 5 => formatW c .bcd2b
  | 6 => formatW c .s2bcd
  | 7 => formatW c .bcd2s
  | 8 => formatW c .badd
  | 9 => formatW c .bmul
  | _ => .error .reservedOpcode

/-- The decoder at width W: R65, then the index check of R66. Total (R67). -/
def decode (w : Width) (c : CmdWord) : Except DecodeRefusal Instr :=
  match decodeFields c with
  | .error r => .error r
  | .ok i => if wellFormed w i then .ok i else .error .indexRange

/-- The command word with the fields OP, IDX and NIB, RSV zero (R61). -/
def commandWord (op : CmdWord) (idx nib : Nibble) : CmdWord :=
  op ||| (idx.setWidth 16 <<< 4) ||| (nib.setWidth 16 <<< 8)

/-- The encoder: the command word of an instruction (R64; the same words as R69's table). -/
def encode : Instr → CmdWord
  | .dget i => commandWord 0x0001 i 0
  | .dset i n => commandWord 0x0002 i n
  | .dval i => commandWord 0x0003 i 0
  | .b2bcd => commandWord 0x0004 0 0
  | .bcd2b => commandWord 0x0005 0 0
  | .s2bcd => commandWord 0x0006 0 0
  | .bcd2s => commandWord 0x0007 0 0
  | .badd => commandWord 0x0008 0 0
  | .bmul => commandWord 0x0009 0 0

/-- The command word that the low `nbits` bits of `w` are; a command is always 16 bits (R60, R68). -/
def tableWord (nbits w : Nat) : CmdWord := BitVec.ofNat 16 (w % 2 ^ nbits)

/-- What the decoder reads from the word `w` of `nbits` bits, at the width of `State.reset` (at which every index is in
range). The command word is presented whole, so no byte order enters (20_memory.md R43). -/
def decodeTableWord (nbits w : Nat) : Option Instr :=
  if nbits ≤ 16 then (decode Config.resetWidth (tableWord nbits w)).toOption else none

end Sys2Proof
end

