-- ==== Sys2Proof/Machine/State.lean ====
section
/-! DEFINITION. The state of the core: the width, the request and the response of one operation, the refusal mark. -/

namespace Sys2Proof.Machine

/-- What stops the machine. The core itself raises none of these (60_exceptions.md R144: it has no trap). -/
inductive Fault where
  /-- A host-side read of R, ERR, AUX or OBUF' before any response exists (70_reset_and_hazards.md R160, X1).
  Raised by `State.readR`, `readErr`, `readAux`, `readObuf` and by a host script that uses an unbound variable. Safe. -/
  | noResponse
  /-- An access at an offset outside a buffer. Raised by a meaning whose buffer operation answers none; R49 says it is
  never generated, and no meaning reaches it. Safe. -/
  | bufferRange
  /-- A meaning applied to a state in which the host has presented no request (log 16). `step` never does so. Safe. -/
  | noRequest
  /-- A host script that the notation of 30_encoding.md R69 and R71 does not allow. Raised by `hostStep` only (log 18). Safe. -/
  | badScript
  deriving DecidableEq, Repr

/-- Why a request is refused: the closed set of 60_exceptions.md R147. A refused request has no response. -/
inductive Refusal where
  /-- An instruction without a meaning in this model, by its mnemonic; no arm of `exec` answers it. Safe. -/
  | notModelled (mnemonic : String)
  /-- RESERVED_OPCODE, raised by decode: OP is 0x0 or 0xA..0xF (30_encoding.md R65(a)). Safe. -/
  | reservedOpcode
  /-- RESERVED_FIELD, raised by decode: a field that must be zero is not (R65(b) to (d)). Safe. -/
  | reservedField
  /-- INDEX_RANGE, raised by decode, and by a codec meaning applied to such an index: i is at least D (R66). Safe. -/
  | indexRange
  /-- HOST_DUTY, raised by BCD2S: OBUF has fewer than CAP = B bytes (60_exceptions.md R151 H-c). Safe. -/
  | hostDuty
  deriving DecidableEq, Repr

/-- The decoder's refusals among the reasons of R147. -/
def Refusal.ofDecode : DecodeRefusal → Refusal
  | .reservedOpcode => .reservedOpcode
  | .reservedField => .reservedField
  | .indexRange => .indexRange

/-- The error signal ERR, the core's only flag (10_state.md R26). -/
inductive ErrSignal where
  | none
  | invalidDigit
  | overflow
  deriving DecidableEq, Repr

/-- A byte buffer of the host (20_memory.md R40): its size in bytes, and the bytes that are not 0x00 by offset.
An offset below the size that is not listed reads 0x00, a representation only (DESIGN CHOICE, log 4, safe). `Memory.wf` is its canonical form. -/
structure Memory where
  size : Nat
  cells : List Host.Cell
  deriving DecidableEq, Repr

/-- A request (10_state.md R24). A field an operation does not use has no effect on it. -/
structure Request where
  /-- CMD, the command word. -/
  cmd : CmdWord
  /-- A, the first operand word. -/
  a : Word
  /-- B, the second operand word; for BCD2S the capacity CAP. -/
  b : Word
  /-- IBUF, the input text buffer, L = its size. -/
  ibuf : Memory
  /-- OBUF, the output text buffer the host supplies, of at least CAP bytes. -/
  obuf : Memory
  deriving DecidableEq, Repr

/-- A response (10_state.md R25). -/
structure Response where
  /-- R, the result word. -/
  r : Word
  /-- ERR, the error signal. -/
  err : ErrSignal
  /-- AUX, the cursor of S2BCD, the count of BCD2S, 0 for the others. -/
  aux : Nat
  /-- The whole supplied output buffer after the request; OBUF' of R25 is its offsets 0..CAP-1 (DEDUCED, log 10, safe). -/
  obuf : Memory
  deriving DecidableEq, Repr

/-- What a model of the core holds (10_state.md R35), and the model's own counter of free values (log 3). -/
structure State where
  /-- W, fixed for the life of the hardware (00_scope.md R6); no operation changes it (10_state.md R23). -/
  width : Width
  /-- The request the host has presented and the core has not taken (R24). -/
  request : Option Request
  /-- The response of the last accepted request; none before the first (70_reset_and_hazards.md R160). -/
  response : Option Response
  /-- The sticky refusal mark (60_exceptions.md R147). -/
  refusalMark : Bool
  /-- How many free values have been drawn: the model's own field. -/
  drawCount : Nat
  deriving DecidableEq, Repr

/-- The core of width W at the start of a run (R35, R160): no request, no response, the mark clear. -/
def State.resetAt (w : Width) : State :=
  { width := w, request := none, response := none, refusalMark := false, drawCount := 0 }

/-- The machine right after reset, at the width the model names (log 1). -/
def State.reset : State := State.resetAt Config.resetWidth

end Sys2Proof.Machine
end

