-- ==== Sys2Proof/Machine/Ops.lean ====
section
/-! DEFINITION. The named operations over buffers, requests, responses and free values. The core has no trap mechanism
and no trap return (60_exceptions.md R144, R145), so there is no exception entry here: an error is data in the response. -/

namespace Sys2Proof.Machine

/-! ### Byte buffers (20_memory.md R40 to R42) -/

/-- What an offset below the size reads when it is not listed. A representation only (DESIGN CHOICE, log 4, safe): every content the host
can supply has exactly one canonical list. -/
def Memory.unlisted : Byte := 0

/-- The byte a list of cells gives an offset. -/
def cellsRead : List Host.Cell → Nat → Byte
  | [], _ => Memory.unlisted
  | (a, v) :: rest, k => if a = k then v else cellsRead rest k

/-- Put a byte at an offset of a sorted list of cells; the unlisted byte removes the entry. -/
def cellsWrite : List Host.Cell → Nat → Byte → List Host.Cell
  | [], k, v => if v = Memory.unlisted then [] else [(k, v)]
  | (a, u) :: rest, k, v =>
    if k < a then (if v = Memory.unlisted then (a, u) :: rest else (k, v) :: (a, u) :: rest)
    else if k = a then (if v = Memory.unlisted then rest else (k, v) :: rest)
    else (a, u) :: cellsWrite rest k v

/-- Offsets rise strictly from `lo` on, stay below `size`, and no entry is the unlisted byte. -/
def cellsWf (size : Nat) : Nat → List Host.Cell → Bool
  | _, [] => true
  | lo, (a, v) :: rest => decide (lo ≤ a ∧ a < size) && decide (v ≠ Memory.unlisted) && cellsWf size (a + 1) rest

/-- The canonical form of a buffer. -/
def Memory.wf (m : Memory) : Bool := cellsWf m.size 0 m.cells

/-- The buffer of `n` bytes with nothing listed. -/
def Memory.blank (n : Nat) : Memory := { size := n, cells := [] }

/-- `MemRead(k, 1)` (R41): defined for offsets below the size, and without side effect. -/
def Memory.read (m : Memory) (k : Nat) : Option Byte :=
  if k < m.size then some (cellsRead m.cells k) else none

/-- `MemWrite(k, 1, b)` (R42): defined for offsets below the size. -/
def Memory.write (m : Memory) (k : Nat) (b : Byte) : Option Memory :=
  if k < m.size then some { m with cells := cellsWrite m.cells k b } else none

/-- Write bytes at consecutive offsets from `k` on. -/
def Memory.writeFrom (m : Memory) (k : Nat) : List Byte → Option Memory
  | [] => some m
  | b :: bs =>
    match m.write k b with
    | none => none
    | some m' => m'.writeFrom (k + 1) bs

/-- The cells of a dense list of bytes from offset `k` on. -/
def cellsOfBytes : Nat → List Byte → List Host.Cell
  | _, [] => []
  | k, b :: bs => if b = Memory.unlisted then cellsOfBytes (k + 1) bs else (k, b) :: cellsOfBytes (k + 1) bs

/-- The buffer that holds the given bytes in order. -/
def Memory.ofBytes (bs : List Byte) : Memory := { size := bs.length, cells := cellsOfBytes 0 bs }

/-- The bytes of a buffer at its first `n` offsets. -/
def Memory.bytes (m : Memory) (n : Nat) : List Byte := (List.range n).map (cellsRead m.cells)

/-! ### Requests and responses -/

/-- The request with every operand zero or empty. -/
def Request.plain (c : CmdWord) : Request :=
  { cmd := c, a := 0, b := 0, ibuf := Memory.blank 0, obuf := Memory.blank 0 }

/-- The host presents a request (60_exceptions.md R151 H-a). No response to it exists yet
(DEDUCED, log 7, safe). -/
def State.present (s : State) (q : Request) : State :=
  { s with request := some q, response := none }

/-- Operand A at the machine's width (10_state.md R24). -/
def State.opA (s : State) (q : Request) : Word := Word.trunc s.width.bits q.a

/-- Operand B at the machine's width (R24). -/
def State.opB (s : State) (q : Request) : Word := Word.trunc s.width.bits q.b

/-- CAP of a BCD2S request: operand B as a number (00_scope.md R9, 30_encoding.md R63). -/
def State.cap (s : State) (q : Request) : Nat := (s.opB q).toNat

/-- The request is answered: it is consumed, its response stands whole in place of any earlier one, and `drawn` free
values have been taken (00_scope.md R12, 10_state.md R25). -/
def State.accept (s : State) (p : Response) (drawn : Nat) : State :=
  { s with request := none, response := some p, drawCount := s.drawCount + drawn }

/-- A meaning acts on the request present; with none present it faults (DESIGN CHOICE, log 16, safe). -/
def withRequest (s : State) (f : Request → Host.Outcome State Fault Refusal) : Host.Outcome State Fault Refusal :=
  match s.request with
  | none => .fault .noRequest
  | some q => f q

/-- The response of an operation on words: AUX is 0 and OBUF is unchanged (R25). -/
def wordResponse (q : Request) (r : Word) (err : ErrSignal) : Response :=
  { r := r, err := err, aux := 0, obuf := q.obuf }

/-- Answer with a word and an error signal, drawing nothing. -/
def answerWord (s : State) (q : Request) (r : Word) (err : ErrSignal) : Host.Outcome State Fault Refusal :=
  .next (s.accept (wordResponse q r err) 0)

/-! ### Free values (00_scope.md R12; DESIGN CHOICE, log 3, safe) -/

/-- `draw_W()`: the state's next free word, at the machine's width. -/
def State.drawWord (s : State) : Word := Word.trunc s.width.bits (Config.freeWord s.drawCount)

/-- `draw_byte()`, number `k` after the state's next. -/
def State.drawByte (s : State) (k : Nat) : Byte := Config.freeByte (s.drawCount + k)

/-- `draw_nat()`, number `k` after the state's next. -/
def State.drawNat (s : State) (k : Nat) : Nat := Config.freeCount (s.drawCount + k)

/-- Answer with a drawn word and an error signal. -/
def answerDrawnWord (s : State) (q : Request) (err : ErrSignal) : Host.Outcome State Fault Refusal :=
  .next (s.accept (wordResponse q s.drawWord err) 1)

/-! ### What the host reads back, and reset -/

/-- A read of the response by the host: before any response exists it faults (70_reset_and_hazards.md R160). -/
def State.readResponse (s : State) : Except Fault Response :=
  match s.response with
  | none => .error .noResponse
  | some p => .ok p

/-- The host reads R. -/
def State.readR (s : State) : Except Fault Word := s.readResponse.map (·.r)

/-- The host reads ERR. -/
def State.readErr (s : State) : Except Fault ErrSignal := s.readResponse.map (·.err)

/-- The host reads AUX. -/
def State.readAux (s : State) : Except Fault Nat := s.readResponse.map (·.aux)

/-- The host reads OBUF'. -/
def State.readObuf (s : State) : Except Fault Memory := s.readResponse.map (·.obuf)

/-- What a refusal leaves (60_exceptions.md R147): no response, and the mark set for the rest of the run. -/
def State.recordRefusal (s : State) : State :=
  { s with request := none, response := none, refusalMark := true }

/-- A reset of the core within a run (70_reset_and_hazards.md R160): no response exists after it; W is kept. While a
request is present there is no move (R161, R151 H-e). The refusal mark belongs to the run and stays (DEDUCED,
log 15, safe). -/
def State.coreReset (s : State) : Option State :=
  match s.request with
  | none => some { s with response := none }
  | some _ => none

end Sys2Proof.Machine
end

