-- ==== Sys2Proof/Machine/Operands.lean ====
section
/-! DEFINITION. The value functions on words: nibbles, validity, decimal reading, packing, significant digits; and the
digit bytes of text. -/

namespace Sys2Proof.Machine

/-! ### The codec's two functions (40_digit_codec.md R81, R82, R84) -/

/-- `nib(x, i) = x[4i+3 : 4i]`, the raw nibble i (00_scope.md R11). -/
def nib (x : Word) (i : Nat) : Nibble := x.extractLsb' (4 * i) 4

/-- Write nibble i: `(x & ~(0xF << 4i)) | (n << 4i)` (R82). -/
def setNib (x : Word) (i : Nat) (n : Nibble) : Word :=
  (x &&& ~~~((0xF : Word) <<< (4 * i))) ||| (n.setWidth 64 <<< (4 * i))

/-- `digit_ok(n) = (n ≤ 9)` (10_state.md R27). -/
def digitOk (n : Nibble) : Bool := decide (n.toNat ≤ 9)

/-- A decimal digit 0..9 as a nibble. -/
def digitNibble (d : Nat) : Nibble := BitVec.ofNat 4 d

/-! ### Words as BCD values -/

/-- `valid(x)`: every one of the D nibbles is at most 9 (R27). -/
def valid (w : Width) (x : Word) : Bool := (List.range w.digits).all fun i => digitOk (nib x i)

/-- The accumulation of R28 over nibbles i-1 downto 0. -/
def valFrom (x : Word) : Nat → Nat → Nat
  | 0, acc => acc
  | i + 1, acc => valFrom x i (acc * 10 + (nib x i).toNat)

/-- The decimal reading `val(x)` of any word, valid or not (R28). -/
def val (w : Width) (x : Word) : Nat := valFrom x w.digits 0

/-- Write the `todo` lowest decimal digits of `v` into nibbles i, i+1, ...: the loop of 41_binary_bcd.md R90. -/
def packFrom : Nat → Nat → Nat → Word → Word
  | 0, _, _, r => r
  | todo + 1, i, v, r => packFrom todo (i + 1) (v / 10) (setNib r i (digitNibble (v % 10)))

/-- The packing `pack(v)` of a number below 10^D (R29). -/
def pack (w : Width) (v : Nat) : Word := packFrom w.digits 0 v 0

/-- The all-ones word `2^W - 1` (43_arithmetic.md R123). -/
def allOnes (w : Width) : Word := BitVec.ofNat 64 (2 ^ w.bits - 1)

/-- One more than the highest index below the bound whose nibble is not zero; 1 where there is none. -/
def sigFrom (x : Word) : Nat → Nat
  | 0 => 1
  | i + 1 => if nib x i ≠ 0 then i + 1 else sigFrom x i

/-- The significant digit count `sig(x)` (42_text.md R103). -/
def sig (w : Width) (x : Word) : Nat := sigFrom x w.digits

/-! ### Decimal text (42_text.md R100) -/

/-- The byte of '0' (R100, from general knowledge; PRESUMED, log 9, unsafe if the bytes are not ASCII). -/
def asciiZero : Nat := 0x30

/-- A digit byte: 0x30 ≤ c ≤ 0x39; every other byte is a non-digit (R100). -/
def isDigitByte (c : Byte) : Bool := decide (0x30 ≤ c.toNat ∧ c.toNat ≤ 0x39)

/-- The digit value c - 0x30 of a digit byte (R100). -/
def digitByteValue (c : Byte) : Nat := c.toNat - asciiZero

/-- The digit byte of a nibble (R104). -/
def digitByte (n : Nibble) : Byte := BitVec.ofNat 8 (asciiZero + n.toNat)

/-- The terminator NUL (R100). -/
def terminator : Byte := 0x00

/-- The text of the n low digits of a word, most significant first (R104, 20_memory.md R45). -/
def digitText (x : Word) (n : Nat) : List Byte := (List.range n).map fun k => digitByte (nib x (n - 1 - k))

/-- Read the digit run of a buffer from offset `r` on, with the value `v` read so far: the loop of R101. It stops at
the first non-digit or, with `fuel` the number of bytes left, at the end of the buffer. -/
def scanDigits (m : Memory) : Nat → Nat → Nat → Option (Nat × Nat)
  | 0, r, v => some (r, v)
  | fuel + 1, r, v =>
    match m.read r with
    | none => none
    | some c => if isDigitByte c then scanDigits m fuel (r + 1) (v * 10 + digitByteValue c) else some (r, v)

end Sys2Proof.Machine
end

