-- ==== Sys2Proof/Machine/Flags.lean ====
section
/-! DEFINITION. The error signal ERR, the core's only flag: its code, its conditions and their precedence. -/

namespace Sys2Proof.Machine

/-- The two bits of ERR (10_state.md R26); 0b11 is never produced. -/
def ErrSignal.code : ErrSignal → BitVec 2
  | .none => 0b00
  | .invalidDigit => 0b01
  | .overflow => 0b10

/-- The value needs more than D decimal digits (60_exceptions.md R140): v ≥ 10^D. -/
def needsMoreDigits (w : Width) (v : Nat) : Bool := decide (w.limit ≤ v)

/-- The capacity is below the guaranteed-sufficient D + 1 (42_text.md R104). -/
def capTooSmall (w : Width) (cap : Nat) : Bool := decide (cap < w.digits + 1)

/-- NONE or OVERFLOW. -/
def overflowIf (c : Bool) : ErrSignal := if c then .overflow else .none

/-- NONE or INVALID_DIGIT. -/
def invalidIf (c : Bool) : ErrSignal := if c then .invalidDigit else .none

end Sys2Proof.Machine
end

