-- ==== Sys2Proof/Machine/Arithmetic.lean ====
section
/-! DEFINITION. BCD Arithmetic: BADD, BMUL (43_arithmetic.md). -/

namespace Sys2Proof.Machine

/-- Both operands are validated before anything else (R120): else INVALID_DIGIT with a drawn word. -/
def bcdOp (s : State) (result : Word → Word → Word × ErrSignal) : Host.Outcome State Fault Refusal :=
  withRequest s fun q =>
    if valid s.width (s.opA q) && valid s.width (s.opB q) then
      answerWord s q (result (s.opA q) (s.opB q)).1 (result (s.opA q) (s.opB q)).2
    else answerDrawnWord s q .invalidDigit

/-- The loop of R121 over nibbles i, i+1, ...: the digit sum, its BCD correction and the carry into the next digit. -/
def addFrom (a b : Word) : Nat → Nat → Nat → Word → Word × Nat
  | 0, _, c, r => (r, c)
  | todo + 1, i, c, r =>
    let t := (nib a i).toNat + (nib b i).toNat + c
    if t ≥ 10 then addFrom a b todo (i + 1) 1 (setNib r i (digitNibble (t - 10)))
    else addFrom a b todo (i + 1) 0 (setNib r i (digitNibble t))

/-- The sum's D digits, and OVERFLOW if a carry survives past the most significant digit (R121). -/
def addResult (w : Width) (a b : Word) : Word × ErrSignal :=
  let s := addFrom a b w.digits 0 0 0
  (s.1, overflowIf (s.2 == 1))

/-- BADD (R121). -/
def execBadd (s : State) : Host.Outcome State Fault Refusal := bcdOp s (addResult s.width)

/-- The inner loop of R123: `acc[i+j] += nib(A,i) * nib(B,j)` for each j in turn. -/
def mulRow (a b : Word) (i : Nat) (js : List Nat) (acc : List Nat) : List Nat :=
  js.foldl (fun acc j => acc.modify (i + j) (· + (nib a i).toNat * (nib b j).toNat)) acc

/-- The digit accumulator of 2D cells after the multiply-accumulate loops of R123, in natural numbers (R124). -/
def mulAccumulate (w : Width) (a b : Word) : List Nat :=
  (List.range w.digits).foldl (fun acc i => mulRow a b i (List.range w.digits) acc)
    (List.replicate (2 * w.digits) 0)

/-- Carry normalisation from the least significant cell upward (R123; 90_conflicts.md C5): the digits and the carry out. -/
def normalise : Nat → List Nat → List Nat × Nat
  | c, [] => ([], c)
  | c, x :: xs => ((x + c) % 10 :: (normalise ((x + c) / 10) xs).1, (normalise ((x + c) / 10) xs).2)

/-- Write digits into nibbles i, i+1, ... -/
def packDigits : Nat → List Nat → Word → Word
  | _, [], r => r
  | i, d :: ds, r => packDigits (i + 1) ds (setNib r i (digitNibble d))

/-- The product's D digits with NONE; or, where a nonzero digit stands at position D or beyond after normalisation, the
all-ones word with OVERFLOW (R123; 90_conflicts.md C7). -/
def mulResult (w : Width) (a b : Word) : Word × ErrSignal :=
  let ds := (normalise 0 (mulAccumulate w a b)).1
  if (ds.drop w.digits).any (· ≠ 0) then (allOnes w, .overflow)
  else (packDigits 0 (ds.take w.digits) 0, .none)

/-- BMUL (R123). -/
def execBmul (s : State) : Host.Outcome State Fault Refusal := bcdOp s (mulResult s.width)

end Sys2Proof.Machine
end

