-- ==== Sys2Proof/Machine/BinaryBcd.lean ====
section
/-! DEFINITION. The Binary-BCD Converter: B2BCD, BCD2B (41_binary_bcd.md). -/

namespace Sys2Proof.Machine

/-- B2BCD (R90): A ≥ 10^D gives OVERFLOW with a drawn word; otherwise the digits of A, least significant first. -/
def execB2bcd (s : State) : Host.Outcome State Fault Refusal :=
  withRequest s fun q =>
    if needsMoreDigits s.width (s.opA q).toNat then answerDrawnWord s q .overflow
    else answerWord s q (pack s.width (s.opA q).toNat) .none

/-- The loop of R91 over nibbles i-1 downto 0: decoding goes on after an invalid nibble, which only sets the flag. -/
def decodeDigits (x : Word) : Nat → Nat → Bool → Nat × Bool
  | 0, acc, bad => (acc, bad)
  | i + 1, acc, bad => decodeDigits x i (acc * 10 + (nib x i).toNat) (bad || !digitOk (nib x i))

/-- BCD2B (R91): the accumulation of the raw nibbles, with INVALID_DIGIT if one of them exceeds 9; never OVERFLOW. -/
def execBcd2b (s : State) : Host.Outcome State Fault Refusal :=
  withRequest s fun q =>
    let d := decodeDigits (s.opA q) s.width.digits 0 false
    answerWord s q (BitVec.ofNat 64 d.1) (invalidIf d.2)

end Sys2Proof.Machine
end

