-- ==== Sys2Proof/Machine/DigitCodec.lean ====
section
/-! DEFINITION. The Digit Codec: DGET, DSET, DVAL (40_digit_codec.md). -/

namespace Sys2Proof.Machine

/-- What the codec commands share (R80): the index must name a digit (30_encoding.md R66; DEDUCED, log 17, safe); ERR is NONE, AUX 0, OBUF
unchanged; the result depends only on A and the command word. -/
def codecOp (i : Nibble) (result : Word → Word) (s : State) : Host.Outcome State Fault Refusal :=
  withRequest s fun q =>
    if indexInRange s.width i then answerWord s q (result (s.opA q)) .none else .refused .indexRange

/-- DGET (R81): the raw nibble i of A, not flagged. -/
def execDget (i : Nibble) (s : State) : Host.Outcome State Fault Refusal :=
  codecOp i (fun a => (nib a i.toNat).setWidth 64) s

/-- DSET (R82): A with nibble i replaced by n, whatever n is. -/
def execDset (i n : Nibble) (s : State) : Host.Outcome State Fault Refusal :=
  codecOp i (fun a => setNib a i.toNat n) s

/-- DVAL (R83): 1 if nibble i of A is at most 9, else 0; the verdict is the result, not an error. -/
def execDval (i : Nibble) (s : State) : Host.Outcome State Fault Refusal :=
  codecOp i (fun a => if digitOk (nib a i.toNat) then 1 else 0) s

end Sys2Proof.Machine
end

