-- ==== Sys2Proof/Machine/Text.lean ====
section
/-! DEFINITION. The Text Converter: S2BCD, BCD2S (42_text.md). -/

namespace Sys2Proof.Machine

/-- S2BCD (R101): the maximal digit run from offset 0 of IBUF; AUX is its length; a value of 10^D or more gives
OVERFLOW with a drawn word. -/
def execS2bcd (s : State) : Host.Outcome State Fault Refusal :=
  withRequest s fun q =>
    match scanDigits q.ibuf q.ibuf.size 0 0 with
    | none => .fault .bufferRange
    | some (r, v) =>
      if needsMoreDigits s.width v then
        .next (s.accept { r := s.drawWord, err := .overflow, aux := r, obuf := q.obuf } 1)
      else .next (s.accept { r := pack s.width v, err := .none, aux := r, obuf := q.obuf } 0)

/-- The bytes BCD2S leaves unspecified on INVALID_DIGIT: offsets below min(CAP, D+1) (R104). -/
def spoiledCount (w : Width) (cap : Nat) : Nat := min cap (w.digits + 1)

/-- Write `bs` at offset 0 of OBUF and answer with R = 0 (R104). -/
def answerText (s : State) (q : Request) (bs : List Byte) (err : ErrSignal) (aux drawn : Nat) :
    Host.Outcome State Fault Refusal :=
  match q.obuf.writeFrom 0 bs with
  | none => .fault .bufferRange
  | some m => .next (s.accept { r := 0, err := err, aux := aux, obuf := m } drawn)

/-- BCD2S (R104). An OBUF of fewer than CAP bytes is refused (60_exceptions.md R151 H-c). An invalid A comes first
(R142; 90_conflicts.md C3), then the capacity, which is checked before any write. -/
def execBcd2s (s : State) : Host.Outcome State Fault Refusal :=
  withRequest s fun q =>
    if q.obuf.size < s.cap q then .refused .hostDuty
    else if !valid s.width (s.opA q) then
      answerText s q ((List.range (spoiledCount s.width (s.cap q))).map s.drawByte) .invalidDigit
        (s.drawNat (spoiledCount s.width (s.cap q))) (spoiledCount s.width (s.cap q) + 1)
    else if capTooSmall s.width (s.cap q) then answerText s q [] .overflow 0 0
    else
      answerText s q (digitText (s.opA q) (sig s.width (s.opA q)) ++ [terminator]) .none (sig s.width (s.opA q)) 0

end Sys2Proof.Machine
end

