-- ==== Sys2Proof/Machine/Dispatch.lean ====
section
/-! DEFINITION. The meaning of each instruction, one arm per constructor (30_encoding.md R64). -/

namespace Sys2Proof.Machine

def exec (i : Instr) (s : State) : Host.Outcome State Fault Refusal :=
  match i with
  | .dget k => Sys2Proof.Machine.execDget k s
  | .dset k n => Sys2Proof.Machine.execDset k n s
  | .dval k => Sys2Proof.Machine.execDval k s
  | .b2bcd => Sys2Proof.Machine.execB2bcd s
  | .bcd2b => Sys2Proof.Machine.execBcd2b s
  | .s2bcd => Sys2Proof.Machine.execS2bcd s
  | .bcd2s => Sys2Proof.Machine.execBcd2s s
  | .badd => Sys2Proof.Machine.execBadd s
  | .bmul => Sys2Proof.Machine.execBmul s

end Sys2Proof.Machine
end

