-- ==== Sys2Proof/Machine/Step.lean ====
section
/-! DEFINITION. One step of the core: it takes the request present and answers it, or refuses it; with no request it idles. -/

namespace Sys2Proof.Machine

/-- One request, one atomic step (20_memory.md R47). Decode refusals come first (60_exceptions.md R147); with no
request present the core is idle and nothing changes (70_reset_and_hazards.md R160; DEDUCED, log 5, safe). -/
def step (s : State) : Host.Outcome State Fault Refusal :=
  match s.request with
  | none => .next s
  | some q =>
    match decode s.width q.cmd with
    | .error r => .refused (.ofDecode r)
    | .ok i => exec i s

/-- The state in which the next step runs the command word `w`: a request with that command word, its operands those
of the request already present, or zero words and empty
buffers (DESIGN CHOICE, log 11, safe). -/
def State.withFetchWord (s : State) (nbits w : Nat) : State :=
  { s with request := some { s.request.getD (Request.plain 0) with cmd := tableWord nbits w } }

end Sys2Proof.Machine
end

