-- ==== Sys2Proof/Machine/Assembler.lean ====
section
/-! DEFINITION. Assembly lines and the requests they stand for (30_encoding.md R69, R70), as abstract text. -/

namespace Sys2Proof.Machine

/-- A name of the host's notation. -/
abbrev Name := List Char

/-- A word operand: a literal, or a host variable standing for its R (R69, R71). -/
inductive AsmOperand where
  | literal (n : Nat)
  | var (v : Name)
  deriving DecidableEq, Repr

/-- One assembly line (R69), the two pseudo-instructions of R70 among them. -/
inductive AsmLine where
  | dget (a : AsmOperand) (i : Nibble)
  | dset (a : AsmOperand) (i n : Nibble)
  | dval (a : AsmOperand) (i : Nibble)
  | b2bcd (a : AsmOperand)
  | bcd2b (a : AsmOperand)
  | s2bcd (s : List Byte)
  | bcd2s (a : AsmOperand) (buf : Name)
  | badd (a b : AsmOperand)
  | bmul (a b : AsmOperand)
  | bvalid (a : AsmOperand)
  | binc (a : AsmOperand)
  deriving DecidableEq, Repr

/-- The pseudo-instructions expanded, each to exactly one line (R70). -/
def AsmLine.expand : AsmLine → AsmLine
  | .bvalid a => .bcd2b a
  | .binc a => .badd a (.literal 1)
  | l => l

/-- The command a line stands for (R69). -/
def AsmLine.instr : AsmLine → Instr
  | .dget _ i => .dget i
  | .dset _ i n => .dset i n
  | .dval _ i => .dval i
  | .b2bcd _ => .b2bcd
  | .bcd2b _ => .bcd2b
  | .s2bcd _ => .s2bcd
  | .bcd2s _ _ => .bcd2s
  | .badd _ _ => .badd
  | .bmul _ _ => .bmul
  | .bvalid _ => .bcd2b
  | .binc _ => .badd

/-- What the host's names stand for: bound variables with their responses, declared arrays with their contents. -/
structure HostEnv where
  vars : List (Name × Response)
  bufs : List (Name × Memory)
  deriving DecidableEq, Repr

/-- The entry of a name, the first where there are several. -/
def lookupName {α : Type} (v : Name) : List (Name × α) → Option α
  | [] => none
  | (u, x) :: rest => if u = v then some x else lookupName v rest

/-- Bind a name in place of any earlier binding. -/
def bindName {α : Type} (v : Name) (x : α) (env : List (Name × α)) : List (Name × α) :=
  (v, x) :: env.filter (fun e => e.1 ≠ v)

/-- The word of an operand. A literal must fit W bits (R69); a variable not yet bound has no value (R160). -/
def AsmOperand.word (w : Width) (env : HostEnv) : AsmOperand → Except Fault Word
  | .literal n => if n < 2 ^ w.bits then .ok (BitVec.ofNat 64 n) else .error .badScript
  | .var v =>
    match lookupName v env.vars with
    | none => .error .noResponse
    | some p => .ok p.r

/-- The request of a line with operand words A and B, its buffers empty. -/
def plainRequest (l : AsmLine) (a b : Word) : Request :=
  { Request.plain (encode l.instr) with a := a, b := b }

/-- A line of one word operand. -/
def requestA (w : Width) (env : HostEnv) (l : AsmLine) (a : AsmOperand) : Except Fault Request :=
  match a.word w env with
  | .error f => .error f
  | .ok x => .ok (plainRequest l x 0)

/-- A line of two word operands. -/
def requestAB (w : Width) (env : HostEnv) (l : AsmLine) (a b : AsmOperand) : Except Fault Request :=
  match a.word w env, b.word w env with
  | .error f, _ => .error f
  | .ok _, .error f => .error f
  | .ok x, .ok y => .ok (plainRequest l x y)

/-- A BCD2S line: OBUF is the array and B its length, which must be a W-bit number (R69; D31). -/
def requestBuf (w : Width) (env : HostEnv) (l : AsmLine) (a : AsmOperand) (buf : Name) : Except Fault Request :=
  match a.word w env, lookupName buf env.bufs with
  | .error f, _ => .error f
  | .ok _, none => .error .badScript
  | .ok x, some m =>
    if m.size < 2 ^ w.bits then .ok { plainRequest l x (BitVec.ofNat 64 m.size) with obuf := m }
    else .error .badScript

/-- The request a line stands for (R69). A field the operation does not use may hold any value (10_state.md R24): it is
zero or empty here. -/
def AsmLine.request (w : Width) (env : HostEnv) (l : AsmLine) : Except Fault Request :=
  match l.expand with
  | .dget a _ => requestA w env l a
  | .dset a _ _ => requestA w env l a
  | .dval a _ => requestA w env l a
  | .b2bcd a => requestA w env l a
  | .bcd2b a => requestA w env l a
  | .s2bcd s => .ok { plainRequest l 0 0 with ibuf := Memory.ofBytes s }
  | .bcd2s a buf => requestBuf w env l a buf
  | .badd a b => requestAB w env l a b
  | .bmul a b => requestAB w env l a b
  | .bvalid a => requestA w env l a
  | .binc a => requestA w env l a

/-- The array a line writes: BCD2S only. -/
def AsmLine.outArray : AsmLine → Option Name
  | .bcd2s _ buf => some buf
  | _ => none

end Sys2Proof.Machine
end

