-- ==== Sys2Proof/Machine/HostScript.lean ====
section
/-! DEFINITION. The host script of 30_encoding.md R71: a second machine, the host, that issues requests to the core. Its
state is host state, not core state (10_state.md R22). -/

namespace Sys2Proof.Machine

/-- A host statement (R71). -/
inductive Stmt where
  /-- `t = <request>`. -/
  | issue (t : Name) (line : AsmLine)
  /-- `if t.ERR == e goto label`. -/
  | ifErr (t : Name) (e : ErrSignal) (target : Name)
  /-- `if t == v goto label`. -/
  | ifEq (t v : AsmOperand) (target : Name)
  /-- `if t != v goto label`. -/
  | ifNe (t v : AsmOperand) (target : Name)
  /-- `goto label`. -/
  | goto (target : Name)
  /-- `buf = bytes[k]`. -/
  | bytes (buf : Name) (k : Nat)
  /-- `halt`. -/
  | halt
  deriving DecidableEq, Repr

/-- A numbered statement with its label, where it has one. -/
structure ScriptLine where
  label : Option Name
  stmt : Stmt
  deriving DecidableEq, Repr

/-- The host and the core it issues requests to. -/
structure HostState where
  /-- The core. -/
  core : State
  /-- The script, statement 0 first. -/
  script : List ScriptLine
  /-- The host's statement index, its program counter. -/
  index : Nat
  /-- The host's variables and arrays. -/
  env : HostEnv
  /-- The contents each array has in the program's start state. -/
  startBufs : List (Name × Memory)
  /-- Whether the script has ended. -/
  halted : Bool
  deriving DecidableEq, Repr

/-- A script at its start: statement 0, nothing bound, the core at the start of a run. -/
def HostState.start (w : Width) (script : List ScriptLine) (startBufs : List (Name × Memory)) : HostState :=
  { core := .resetAt w, script := script, index := 0, env := { vars := [], bufs := [] }, startBufs := startBufs,
    halted := false }

/-- The index of the first statement with a label. -/
def labelIndex (target : Name) : List ScriptLine → Option Nat
  | [] => none
  | l :: rest => if l.label = some target then some 0 else (labelIndex target rest).map (· + 1)

/-- Go on with the next statement. -/
def HostState.advance (h : HostState) : HostState := { h with index := h.index + 1 }

/-- Go on at a label; a label that no statement carries is no script (DESIGN CHOICE, log 18, safe). -/
def HostState.jump (h : HostState) (target : Name) : Host.Outcome HostState Fault Refusal :=
  match labelIndex target h.script with
  | none => .fault .badScript
  | some k => .next { h with index := k }

/-- Go on at a label if the condition holds, else with the next statement. -/
def HostState.jumpIf (h : HostState) (c : Bool) (target : Name) : Host.Outcome HostState Fault Refusal :=
  if c then h.jump target else .next h.advance

/-- Bind the response of a request, and the array it wrote. -/
def HostState.bindResponse (h : HostState) (t : Name) (line : AsmLine) (p : Response) : HostState :=
  { h with env :=
      { vars := bindName t p h.env.vars,
        bufs := match line.outArray with
          | none => h.env.bufs
          | some buf => bindName buf p.obuf h.env.bufs } }

/-- `t = <request>`: issue it, let the core serve it in its one step, and bind its response. A refused request stops
the script in a refused state. -/
def HostState.issue (h : HostState) (t : Name) (line : AsmLine) : Host.Outcome HostState Fault Refusal :=
  match line.request h.core.width h.env with
  | .error f => .fault f
  | .ok q =>
    match step (h.core.present q) with
    | .fault f => .fault f
    | .refused r => .refused r
    | .next c =>
      match c.readResponse with
      | .error f => .fault f
      | .ok p => .next ({ h with core := c }.bindResponse t line p).advance

/-- Compare two operands' words and jump if the comparison comes out as `want`. -/
def HostState.compare (h : HostState) (want : Bool) (t v : AsmOperand) (target : Name) :
    Host.Outcome HostState Fault Refusal :=
  match t.word h.core.width h.env, v.word h.core.width h.env with
  | .error f, _ => .fault f
  | .ok _, .error f => .fault f
  | .ok x, .ok y => h.jumpIf ((x == y) == want) target

/-- `buf = bytes[k]`: declare the array, with the contents the start state gives it, of k bytes. -/
def HostState.declare (h : HostState) (buf : Name) (k : Nat) : Host.Outcome HostState Fault Refusal :=
  match lookupName buf h.startBufs with
  | none => .fault .badScript
  | some m =>
    if m.size = k then .next { h with env := { h.env with bufs := bindName buf m h.env.bufs } }.advance
    else .fault .badScript

/-- The effect of one statement (R71). -/
def HostState.run (h : HostState) : Stmt → Host.Outcome HostState Fault Refusal
  | .issue t line => h.issue t line
  | .ifErr t e target =>
    match lookupName t h.env.vars with
    | none => .fault .noResponse
    | some p => h.jumpIf (p.err == e) target
  | .ifEq t v target => h.compare true t v target
  | .ifNe t v target => h.compare false t v target
  | .goto target => h.jump target
  | .bytes buf k => h.declare buf k
  | .halt => .next { h with halted := true }

/-- One step of the host: the statement at its index. A script that has ended stays; one that runs past its last
statement is no script (DESIGN CHOICE, log 18, safe). -/
def hostStep (h : HostState) : Host.Outcome HostState Fault Refusal :=
  if h.halted then .next h
  else
    match h.script[h.index]? with
    | none => .fault .badScript
    | some l => h.run l.stmt

/-- At most n steps of the host, stopping at the first fault or refusal. -/
def hostRun : Nat → HostState → Host.Outcome HostState Fault Refusal
  | 0, h => .next h
  | n + 1, h =>
    match hostStep h with
    | .next h' => hostRun n h'
    | .fault f => .fault f
    | .refused r => .refused r

end Sys2Proof.Machine
end

