-- ==== Sys2Proof/Machine/Session.lean ====
section
/-! DEFINITION. A run of the core: the host's requests served one after another, going on after a refusal. -/

namespace Sys2Proof.Machine

/-- Present one request and take the step that serves it. A refused request leaves no response and sets the refusal
mark for the rest of the run (60_exceptions.md R147; DEDUCED, log 6, safe); later requests are served as before (R144). -/
def serve (s : State) (q : Request) : Host.Outcome State Fault Refusal :=
  match step (s.present q) with
  | .next t => .next t
  | .fault f => .fault f
  | .refused _ => .next (s.present q).recordRefusal

/-- Serve requests in the order the host issues them (20_memory.md R50). Requests of several hosts stand in the list
in the order in which they interleave (60_exceptions.md R149; DEDUCED, log 13, safe). -/
def serveAll : List Request → State → Host.Outcome State Fault Refusal
  | [], s => .next s
  | q :: qs, s =>
    match serve s q with
    | .next t => serveAll qs t
    | .fault f => .fault f
    | .refused r => .refused r

/-- The response a request gets from a state: none where it is refused. -/
def responseTo (s : State) (q : Request) : Option Response :=
  match serve s q with
  | .next t => t.response
  | .fault _ => none
  | .refused _ => none

end Sys2Proof.Machine
end

