-- ==== Sys2Proof/Safety.lean ====
section
/-! DEFINITION. What the claims call a well-formed state, an accepted request and a clean run. -/

namespace Sys2Proof.Machine

/-- A word's bits from W up are zero. -/
def wordFits (w : Width) (x : Word) : Prop := x.toNat < 2 ^ w.bits

/-- A request's words are W-bit words and its buffers canonical (10_state.md R24). -/
def Request.Wf (w : Width) (q : Request) : Prop :=
  wordFits w q.a ∧ wordFits w q.b ∧ q.ibuf.wf = true ∧ q.obuf.wf = true

/-- A response's word is a W-bit word and its buffer canonical (R25). -/
def Response.Wf (w : Width) (p : Response) : Prop := wordFits w p.r ∧ p.obuf.wf = true

/-- The invariant of the core: whatever request or response is present is well formed at the machine's width. -/
def State.Inv (s : State) : Prop :=
  (∀ q, s.request = some q → q.Wf s.width) ∧ (∀ p, s.response = some p → p.Wf s.width)

/-- The core accepts the request: it answers a response and does not refuse (60_exceptions.md R147). -/
def Accepts (s : State) (q : Request) : Prop := ∃ t p, step (s.present q) = .next t ∧ t.response = some p

/-- A run of requests in which each is accepted. -/
def CleanRun : List Request → State → Prop
  | [], _ => True
  | q :: qs, s => Accepts s q ∧ ∀ t, serve s q = .next t → CleanRun qs t

/-! ### Words the claims use -/

/-- The meaning of the instruction answers the response from the state. -/
def Answers (s : State) (i : Instr) (p : Response) : Prop := ∃ t, exec i s = .next t ∧ t.response = some p

/-- The response an instruction gives to operand words alone, at width W, its buffers empty: the R of R85's and R126's laws. -/
def resultOf (w : Width) (i : Instr) (a b : Word) : Option Response :=
  match exec i ((State.resetAt w).present { Request.plain (encode i) with a := a, b := b }) with
  | .next t => t.response
  | .fault _ => none
  | .refused _ => none

/-- A format-W command has the one command word `c`; every other word with its opcode is refused (30_encoding.md R62, R65). -/
def HasOneWord (i : Instr) (c : CmdWord) : Prop :=
  ∀ w c', (decode w c' = .ok i ↔ c' = c) ∧
    (opField c' = opField c → c'.extractLsb' 4 12 ≠ 0 → decode w c' = .error .reservedField)

/-- Two requests agree on the fields an instruction uses (10_state.md R24). -/
def usesSame : Instr → Request → Request → Prop
  | .dget _, q, q' => q.a = q'.a
  | .dset _ _, q, q' => q.a = q'.a
  | .dval _, q, q' => q.a = q'.a
  | .b2bcd, q, q' => q.a = q'.a
  | .bcd2b, q, q' => q.a = q'.a
  | .s2bcd, q, q' => q.ibuf = q'.ibuf
  | .bcd2s, q, q' => q.a = q'.a ∧ q.b = q'.b ∧ q.obuf = q'.obuf
  | .badd, q, q' => q.a = q'.a ∧ q.b = q'.b
  | .bmul, q, q' => q.a = q'.a ∧ q.b = q'.b

/-- The value of decimal text, read on from `v` (42_text.md R101). -/
def textValue (v : Nat) (bs : List Byte) : Nat := bs.foldl (fun v c => v * 10 + digitByteValue c) v

/-- The leading digit run of a buffer, the bytes S2BCD consumes (R101). -/
def digitRun (m : Memory) : List Byte := (m.bytes m.size).takeWhile isDigitByte

/-- The nibble form of the S2BCD accumulation (R102): each digit shifts the word one nibble up; `lost` records that a
nonzero digit left it. -/
def shiftAdd (w : Width) : List Nat → Word → Bool → Word × Bool
  | [], acc, lost => (acc, lost)
  | d :: ds, acc, lost =>
    shiftAdd w ds (Word.trunc w.bits (acc <<< 4) ||| BitVec.ofNat 64 d) (lost || nib acc (w.digits - 1) != 0)

/-- The number digits write, most significant first. -/
def digitsValue (ds : List Nat) : Nat := ds.foldl (fun v d => v * 10 + d) 0

end Sys2Proof.Machine
end

