-- ==== Sys2Proof/Certificates/Slice0/Obligations.lean ====
section
/-! DEFINITION. The statements for the provers. Each names the rule of spec/ it formalises; `/` and `%` are the `div` and
`mod` of 00_scope.md R13, and `x / 16 ^ i % 16` is the nibble `x[4i+3 : 4i]` of R11. -/

open Sys2Proof Sys2Proof.Machine

/-! ### Encoding (30_encoding.md) -/

/-- R67: every instruction that is well formed at a width decodes from its own command word.
The spec marks the rule as derived from R64 to R66. -/
def Obligations.EncodedInstructionsDecode : Prop :=
  ∀ (w : Width) (i : Instr), wellFormed w i = true → decode w (encode i) = .ok i

/-- R67: a command word that decodes is the one word of its instruction, and that instruction is in range.
The spec marks the rule as derived from R64 to R66. -/
def Obligations.DecodedWordsAreEncodings : Prop :=
  ∀ (w : Width) (c : CmdWord) (i : Instr), decode w c = .ok i → encode i = c ∧ wellFormed w i = true

/-- R64: each row of the opcode map selects by its mask and match, and its fields are CMD[7:4] and CMD[11:8]; the
opcodes 0x0 and 0xA to 0xF, and no others, are reserved opcodes. -/
def Obligations.OpcodeMapSelects : Prop :=
  ∀ (c : CmdWord),
    (∀ i, decodeFields c = .ok (.dget i) ↔ c &&& 0xFF0F = 0x0001 ∧ i = c.extractLsb' 4 4) ∧
    (∀ i n, decodeFields c = .ok (.dset i n) ↔
      c &&& 0xF00F = 0x0002 ∧ i = c.extractLsb' 4 4 ∧ n = c.extractLsb' 8 4) ∧
    (∀ i, decodeFields c = .ok (.dval i) ↔ c &&& 0xFF0F = 0x0003 ∧ i = c.extractLsb' 4 4) ∧
    (decodeFields c = .ok .b2bcd ↔ c &&& 0xFFFF = 0x0004) ∧
    (decodeFields c = .ok .bcd2b ↔ c &&& 0xFFFF = 0x0005) ∧
    (decodeFields c = .ok .s2bcd ↔ c &&& 0xFFFF = 0x0006) ∧
    (decodeFields c = .ok .bcd2s ↔ c &&& 0xFFFF = 0x0007) ∧
    (decodeFields c = .ok .badd ↔ c &&& 0xFFFF = 0x0008) ∧
    (decodeFields c = .ok .bmul ↔ c &&& 0xFFFF = 0x0009) ∧
    (decodeFields c = .error .reservedOpcode ↔
      (c.extractLsb' 0 4).toNat = 0 ∨ 10 ≤ (c.extractLsb' 0 4).toNat)

/-- R65: the words of (a) are refused as RESERVED_OPCODE, and those of (b), (c), (d) that are not of (a) as
RESERVED_FIELD, at every width; a request that carries one gets no response and leaves the refusal mark set. -/
def Obligations.ReservedWordsAreRefused : Prop :=
  ∀ (s : State) (q : Request),
    let op := (q.cmd.extractLsb' 0 4).toNat
    let idx := q.cmd.extractLsb' 4 4
    let nibble := q.cmd.extractLsb' 8 4
    let rsv := q.cmd.extractLsb' 12 4
    ((op = 0 ∨ 10 ≤ op) → step (s.present q) = .refused .reservedOpcode) ∧
    (1 ≤ op → op ≤ 9 → (rsv ≠ 0 ∨ ((op = 1 ∨ op = 3) ∧ nibble ≠ 0) ∨ (4 ≤ op ∧ (idx ≠ 0 ∨ nibble ≠ 0))) →
      step (s.present q) = .refused .reservedField) ∧
    ((op = 0 ∨ 10 ≤ op) ∨ (rsv ≠ 0 ∨ ((op = 1 ∨ op = 3) ∧ nibble ≠ 0) ∨ (4 ≤ op ∧ (idx ≠ 0 ∨ nibble ≠ 0))) →
      ∃ t, serve s q = .next t ∧ t.response = none ∧ t.refusalMark = true)

/-- R66: a format-C word that passes R65 and whose IDX is at least D is refused as INDEX_RANGE; with IDX below D it
decodes. The bounds are IDX ≥ 2, 4, 8 at W = 8, 16, 32, and every IDX is in range at W = 64. -/
def Obligations.IndexAtOrAboveDigitCountIsRefused : Prop :=
  (∀ (w : Width) (i n : Nibble),
    (w.digits ≤ i.toNat → decode w (0x0001 ||| i.setWidth 16 <<< 4) = .error .indexRange ∧
      decode w (0x0002 ||| i.setWidth 16 <<< 4 ||| n.setWidth 16 <<< 8) = .error .indexRange ∧
      decode w (0x0003 ||| i.setWidth 16 <<< 4) = .error .indexRange) ∧
    (i.toNat < w.digits → decode w (0x0001 ||| i.setWidth 16 <<< 4) = .ok (.dget i) ∧
      decode w (0x0002 ||| i.setWidth 16 <<< 4 ||| n.setWidth 16 <<< 8) = .ok (.dset i n) ∧
      decode w (0x0003 ||| i.setWidth 16 <<< 4) = .ok (.dval i))) ∧
  Width.digits .w8 = 2 ∧ Width.digits .w16 = 4 ∧ Width.digits .w32 = 8 ∧ Width.digits .w64 = 16

/-- A few words of 95_test_vectors.md section 2.1, at the widths it gives. -/
def Obligations.DocumentedWordsDecode : Prop :=
  decode .w16 0x0011 = .ok (.dget 1) ∧ decode .w16 0x0932 = .ok (.dset 3 9) ∧ decode .w16 0x0009 = .ok .bmul ∧
  decode .w8 0x0021 = .error .indexRange ∧ decode .w64 0x00F1 = .ok (.dget 15) ∧
  decode .w16 0x100A = .error .reservedOpcode ∧ decode .w16 0xF932 = .error .reservedField ∧
  decode .w16 0x0F42 = .error .indexRange ∧ decode .w16 0x0104 = .error .reservedField

/-- R69's table: the command word and the operands of each assembly line, whatever its word operands are. -/
def Obligations.AssemblyLinesHaveTheirWords : Prop :=
  ∀ (w : Width) (env : HostEnv) (a b : AsmOperand) (x y : Word) (i n : Nibble) (bs : List Byte) (buf : Name) (m : Memory),
    a.word w env = .ok x → b.word w env = .ok y → lookupName buf env.bufs = some m → m.size < 2 ^ w.bits →
    (∃ q, (AsmLine.dget a i).request w env = .ok q ∧ q.cmd = 0x0001 ||| i.setWidth 16 <<< 4 ∧ q.a = x) ∧
    (∃ q, (AsmLine.dset a i n).request w env = .ok q ∧
      q.cmd = 0x0002 ||| i.setWidth 16 <<< 4 ||| n.setWidth 16 <<< 8 ∧ q.a = x) ∧
    (∃ q, (AsmLine.dval a i).request w env = .ok q ∧ q.cmd = 0x0003 ||| i.setWidth 16 <<< 4 ∧ q.a = x) ∧
    (∃ q, (AsmLine.b2bcd a).request w env = .ok q ∧ q.cmd = 0x0004 ∧ q.a = x) ∧
    (∃ q, (AsmLine.bcd2b a).request w env = .ok q ∧ q.cmd = 0x0005 ∧ q.a = x) ∧
    (∃ q, (AsmLine.s2bcd bs).request w env = .ok q ∧ q.cmd = 0x0006 ∧ q.ibuf.size = bs.length ∧
      ∀ k, q.ibuf.read k = bs[k]?) ∧
    (∃ q, (AsmLine.bcd2s a buf).request w env = .ok q ∧ q.cmd = 0x0007 ∧ q.a = x ∧ q.obuf = m ∧
      q.b.toNat = m.size) ∧
    (∃ q, (AsmLine.badd a b).request w env = .ok q ∧ q.cmd = 0x0008 ∧ q.a = x ∧ q.b = y) ∧
    (∃ q, (AsmLine.bmul a b).request w env = .ok q ∧ q.cmd = 0x0009 ∧ q.a = x ∧ q.b = y)

/-- R70: `BVALID a` is the one request `BCD2B a`, answered NONE exactly when a is valid, with a's decimal reading;
`BINC a` is the one request `BADD a, 0x1`, answered for a valid a with OVERFLOW where a reads 10^D - 1, and otherwise with
NONE and one more than a. -/
def Obligations.PseudoInstructionsExpand : Prop :=
  ∀ (s : State) (env : HostEnv) (a : AsmOperand),
    (AsmLine.bvalid a).request s.width env = (AsmLine.bcd2b a).request s.width env ∧
    (AsmLine.binc a).request s.width env = (AsmLine.badd a (.literal 1)).request s.width env ∧
    (∀ q, (AsmLine.bvalid a).request s.width env = .ok q →
      ∃ p, responseTo s q = some p ∧ (p.err = .none ↔ valid s.width (s.opA q) = true) ∧
        p.r.toNat = val s.width (s.opA q)) ∧
    (∀ q, (AsmLine.binc a).request s.width env = .ok q → valid s.width (s.opA q) = true →
      ∃ p, responseTo s q = some p ∧
        (val s.width (s.opA q) = s.width.limit - 1 → p.err = .overflow) ∧
        (val s.width (s.opA q) ≠ s.width.limit - 1 → p.err = .none ∧ val s.width p.r = val s.width (s.opA q) + 1))

/-! ### Steps, reset and the run of requests -/

/-- One step serves the request present: with none the state stays (R160), a word that does not decode is refused by
its reason, and a word that decodes to i gives exactly `exec i` of the same state.
That an idle step changes nothing is the model's (log 5). -/
def Obligations.StepRunsTheDecodedInstruction : Prop :=
  ∀ (s : State),
    (s.request = none → step s = .next s) ∧
    (∀ q i, s.request = some q → decode s.width q.cmd = .ok i → step s = exec i s) ∧
    (∀ q r, s.request = some q → decode s.width q.cmd = .error r → step s = .refused (.ofDecode r))

/-- R160: at the start of a run and after a reset no response exists and every read of it faults; a reset keeps W, and a
request gets the response it would have got without the reset, from the same place in the sequence of free values.
What a reset keeps of the run, and its absence while a request is present, are the model's (log 15). -/
def Obligations.ResetLeavesNoResponse : Prop :=
  (∀ w : Width, (State.resetAt w).width = w ∧ (State.resetAt w).request = none ∧
    (State.resetAt w).response = none ∧ (State.resetAt w).refusalMark = false ∧
    (State.resetAt w).readR = .error .noResponse ∧ (State.resetAt w).readErr = .error .noResponse ∧
    (State.resetAt w).readAux = .error .noResponse ∧ (State.resetAt w).readObuf = .error .noResponse) ∧
  (∀ s t : State, s.coreReset = some t → t.width = s.width ∧ t.response = none ∧
    t.readR = .error .noResponse ∧ t.readErr = .error .noResponse ∧ t.readAux = .error .noResponse ∧
    t.readObuf = .error .noResponse ∧
    ∀ q, responseTo { t with drawCount := s.drawCount } q = responseTo s q) ∧
  (∀ s : State, s.request = none → ∃ t, s.coreReset = some t)

/-- The state at the start of a run meets the invariant, at every width.
`State.reset` has the width of log 1, the model's choice. -/
def Obligations.ResetStateIsWellFormed : Prop := (∀ w : Width, (State.resetAt w).Inv) ∧ State.reset.Inv

/-- Every step keeps the invariant: the words of a request or response have W bits, and its buffers are canonical.
The 64-bit carrier and the canonical form of a buffer are the model's (logs 2 and 4). -/
def Obligations.StepKeepsWordsAndBuffersWellFormed : Prop := ∀ (s t : State), s.Inv → step s = .next t → t.Inv

/-- R23: no operation changes W: no step, no served request, no run of requests and no reset. -/
def Obligations.WidthNeverChanges : Prop :=
  ∀ (s t : State),
    (step s = .next t → t.width = s.width) ∧ (∀ q, serve s q = .next t → t.width = s.width) ∧
    (∀ qs, serveAll qs s = .next t → t.width = s.width) ∧ (s.coreReset = some t → t.width = s.width)

/-- R49, R144: no step faults, so an offset outside a buffer is never generated, in any state whatever. -/
def Obligations.NoStepFaults : Prop :=
  (∀ (s : State) (f : Fault), step s ≠ .fault f) ∧
  (∀ (s : State) (i : Instr) (f : Fault), s.request ≠ none → exec i s ≠ .fault f)

/-- R147: a request is refused exactly for the reasons of the closed set, decode's first; every other request gets a
response; a refused one gets none and sets the mark, and the mark lasts for the rest of the run. -/
def Obligations.RequestsAreServedOrRefused : Prop :=
  (∀ (s : State) (q : Request),
    (∀ r, step (s.present q) = .refused r ↔
      (∃ d, decode s.width q.cmd = .error d ∧ r = .ofDecode d) ∨
      (decode s.width q.cmd = .ok .bcd2s ∧ q.obuf.size < s.cap q ∧ r = .hostDuty)) ∧
    ((∀ r, step (s.present q) ≠ .refused r) → ∃ t p, step (s.present q) = .next t ∧ t.response = some p) ∧
    (∀ r, step (s.present q) = .refused r →
      ∃ t, serve s q = .next t ∧ t.response = none ∧ t.refusalMark = true)) ∧
  (∀ (s t : State) (qs : List Request), s.refusalMark = true → serveAll qs s = .next t → t.refusalMark = true)

/-- A run of requests always goes through, and its refusal mark is clear at the end exactly when it was clear at the
start and every request was accepted (R147).
That the run goes on after a refusal is the model's (log 6). -/
def Obligations.RefusalMarkTellsTheRun : Prop :=
  ∀ (qs : List Request) (s : State),
    ∃ t, serveAll qs s = .next t ∧ (t.refusalMark = false ↔ s.refusalMark = false ∧ CleanRun qs s)

/-- R20: a response depends only on the request, the width and the draws: whatever was served before, it is the response
a fresh core of that width gives from the same place in the sequence of free values.
The sequence of free values is the model's (log 3). -/
def Obligations.EarlierRequestsDoNotMatter : Prop :=
  ∀ (qs : List Request) (s t : State) (q : Request), serveAll qs s = .next t →
    responseTo t q = responseTo { State.resetAt s.width with drawCount := t.drawCount } q

/-- R24: a field an operation does not use has no effect on it: two requests that agree on the fields it uses get the
same R, ERR and AUX, for BCD2S the same OBUF' at every offset, or are both refused. An unspecified result, R, AUX or a
byte, is compared at the same place in the sequence of draws, which is the model's numbering (log 3) and not R24's. -/
def Obligations.UnusedFieldsHaveNoEffect : Prop :=
  ∀ (s : State) (i : Instr) (q q' : Request), usesSame i q q' →
    (∀ p, Answers (s.present q) i p →
      ∃ p', Answers (s.present q') i p' ∧ p'.r = p.r ∧ p'.err = p.err ∧ p'.aux = p.aux ∧
        (i = .bcd2s → p'.obuf.size = p.obuf.size ∧ ∀ k, p'.obuf.read k = p.obuf.read k)) ∧
    (∀ r, exec i (s.present q) = .refused r → exec i (s.present q') = .refused r)

/-- The frame of DGET, DSET, DVAL, B2BCD, BCD2B, S2BCD, BADD and BMUL: the request is consumed, one whole response
stands, OBUF is unchanged at every offset, AUX is 0 but for S2BCD, and nothing else of the state changes but the count
of free values drawn (R25).
That an answered request is consumed is the model's (log 7). -/
def Obligations.WordOperationsFrame : Prop :=
  ∀ (s t : State) (q : Request) (i : Instr), s.request = some q → i ≠ .bcd2s → exec i s = .next t →
    ∃ p, t = { s with request := none, response := some p, drawCount := t.drawCount } ∧
      p.obuf.size = q.obuf.size ∧ (∀ k, p.obuf.read k = q.obuf.read k) ∧ (i ≠ .s2bcd → p.aux = 0) ∧
      s.drawCount ≤ t.drawCount

/-- R42 and the frame of BCD2S: no offset from min(CAP, D+1) on changes; on OVERFLOW none changes; on NONE none after the
terminator at offset AUX changes; R is 0, and nothing else of the state changes but the count of free values drawn.
That an answered request is consumed is the model's (log 7). -/
def Obligations.TextOutputFrame : Prop :=
  ∀ (s t : State) (q : Request), s.request = some q → q.obuf.wf = true → exec .bcd2s s = .next t →
    ∃ p, t = { s with request := none, response := some p, drawCount := t.drawCount } ∧ p.r = 0 ∧
      p.obuf.size = q.obuf.size ∧
      (∀ k, min (s.cap q) (s.width.digits + 1) ≤ k → p.obuf.read k = q.obuf.read k) ∧
      (p.err = .overflow → ∀ k, p.obuf.read k = q.obuf.read k) ∧
      (p.err = .none → p.aux < min (s.cap q) (s.width.digits + 1) ∧ ∀ k, p.aux < k → p.obuf.read k = q.obuf.read k) ∧
      s.drawCount ≤ t.drawCount

/-- R41, R42: a write of one byte is defined exactly below the size; it gives its offset the byte, leaves every other
offset as it was, and keeps the canonical form; a read is defined exactly below the size.
The canonical form is the model's (log 4). -/
def Obligations.BufferWriteThenRead : Prop :=
  ∀ (m : Memory) (k : Nat) (b : Byte), m.wf = true →
    (m.read k = none ↔ m.size ≤ k) ∧ (m.write k b = none ↔ m.size ≤ k) ∧
    ∀ m', m.write k b = some m' →
      m'.wf = true ∧ m'.size = m.size ∧ m'.read k = some b ∧ ∀ j, j ≠ k → m'.read j = m.read j

/-- Two canonical buffers with the same size and the same bytes are the same data.
The canonical form is the model's (log 4). -/
def Obligations.EqualBuffersAreEqualData : Prop :=
  ∀ (m m' : Memory), m.wf = true → m'.wf = true → m.size = m'.size → (∀ k, m.read k = m'.read k) → m = m'

/-! ### Value functions (10_state.md) -/

/-- R11, R27: a nibble is its slice of the word, and a word is valid when every one of its D nibbles is at most 9. -/
def Obligations.ValidityIsPerNibble : Prop :=
  ∀ (w : Width) (x : Word),
    (∀ i, (nib x i).toNat = x.toNat / 16 ^ i % 16) ∧
    (valid w x = true ↔ ∀ i, i < w.digits → x.toNat / 16 ^ i % 16 ≤ 9)

/-- R28: the decimal reading is the sum of the nibbles' place values; it is at most 10^D - 1 for a valid word, and
at most 15 (10^D - 1) / 9 for any word. -/
def Obligations.DecimalReadingIsThePlaceValueSum : Prop :=
  ∀ (w : Width) (x : Word),
    val w x = ∑ i ∈ Finset.range w.digits, x.toNat / 16 ^ i % 16 * 10 ^ i ∧
    (valid w x = true → val w x ≤ 10 ^ w.digits - 1) ∧ val w x ≤ 15 * (10 ^ w.digits - 1) / 9

/-- R29: the nibbles of pack(v) are v's decimal digits, so it is valid, its reading is v, its nibbles above v's most
significant digit are zero, and it is a bijection from the numbers below 10^D onto the valid W-bit words, with val its
inverse there.
The spec marks the rule as derived from R11 and R28. -/
def Obligations.PackingIsABijection : Prop :=
  ∀ (w : Width),
    (∀ v, v < w.limit → wordFits w (pack w v) ∧ valid w (pack w v) = true ∧ val w (pack w v) = v ∧
      (∀ i, i < w.digits → (nib (pack w v) i).toNat = v / 10 ^ i % 10) ∧
      (∀ i, v < 10 ^ i → nib (pack w v) i = 0)) ∧
    (∀ x, wordFits w x → valid w x = true → val w x < w.limit ∧ pack w (val w x) = x)

/-- R31: (a) 10^D - 1 is below 2^W; (b) so is the decimal reading of any word; (c) the sum of two valid words'
readings is below 2 * 10^D.
The spec marks the rule as derived from R7 and R28. -/
def Obligations.ReadingsFitTheWord : Prop :=
  ∀ (w : Width),
    10 ^ w.digits - 1 < 2 ^ w.bits ∧ 15 * (10 ^ w.digits - 1) / 9 < 2 ^ w.bits ∧
    (∀ x, val w x < 2 ^ w.bits) ∧
    (∀ x y, valid w x = true → valid w y = true → val w x + val w y < 2 * 10 ^ w.digits)

/-- R103: sig is 1 for a word whose D nibbles are 0, and otherwise one more than the highest index of a nonzero nibble;
it lies in 1..D, and a nibble in the significant range is outside 0..9 exactly when the word is invalid.
The spec marks the rule as derived from R27. -/
def Obligations.SignificantDigitsEndAtTheTopNonzeroNibble : Prop :=
  ∀ (w : Width) (x : Word),
    ((∀ i, i < w.digits → nib x i = 0) → sig w x = 1) ∧
    (∀ k, k < w.digits → nib x k ≠ 0 → (∀ i, k < i → i < w.digits → nib x i = 0) → sig w x = k + 1) ∧
    1 ≤ sig w x ∧ sig w x ≤ w.digits ∧
    ((∃ i, i < sig w x ∧ 9 < (nib x i).toNat) ↔ valid w x = false)

/-! ### Digit Codec (40_digit_codec.md) -/

/-- R81, DGET: its encoding and refusals, and the raw nibble as its result, NONE, AUX 0, OBUF unchanged. -/
def Obligations.DgetReturnsTheRawNibble : Prop :=
  (∀ (w : Width) (c : CmdWord),
    (∀ i, decode w c = .ok (.dget i) ↔ c &&& 0xFF0F = 0x0001 ∧ i = c.extractLsb' 4 4 ∧ i.toNat < w.digits) ∧
    (c.extractLsb' 0 4 = 1 → (c.extractLsb' 8 4 ≠ 0 ∨ c.extractLsb' 12 4 ≠ 0) → decode w c = .error .reservedField) ∧
    (c &&& 0xFF0F = 0x0001 → w.digits ≤ (c.extractLsb' 4 4).toNat → decode w c = .error .indexRange)) ∧
  (∀ (s : State) (q : Request) (i : Nibble), s.request = some q →
    (i.toNat < s.width.digits → ∃ r : Word, r.toNat = (s.opA q).toNat / 16 ^ i.toNat % 16 ∧
      Answers s (.dget i) { r := r, err := .none, aux := 0, obuf := q.obuf }) ∧
    (s.width.digits ≤ i.toNat → exec (.dget i) s = .refused .indexRange))

/-- R82, DSET: its encoding and refusals, and A with nibble i replaced by n, whatever n is, NONE, AUX 0. -/
def Obligations.DsetReplacesOneNibble : Prop :=
  (∀ (w : Width) (c : CmdWord),
    (∀ i n, decode w c = .ok (.dset i n) ↔
      c &&& 0xF00F = 0x0002 ∧ i = c.extractLsb' 4 4 ∧ n = c.extractLsb' 8 4 ∧ i.toNat < w.digits) ∧
    (c.extractLsb' 0 4 = 2 → c.extractLsb' 12 4 ≠ 0 → decode w c = .error .reservedField) ∧
    (c &&& 0xF00F = 0x0002 → w.digits ≤ (c.extractLsb' 4 4).toNat → decode w c = .error .indexRange)) ∧
  (∀ (s : State) (q : Request) (i n : Nibble), s.request = some q →
    (i.toNat < s.width.digits → ∃ r : Word, wordFits s.width r ∧
      (∀ j, j < s.width.digits →
        r.toNat / 16 ^ j % 16 = if j = i.toNat then n.toNat else (s.opA q).toNat / 16 ^ j % 16) ∧
      Answers s (.dset i n) { r := r, err := .none, aux := 0, obuf := q.obuf }) ∧
    (s.width.digits ≤ i.toNat → exec (.dset i n) s = .refused .indexRange))

/-- R83, DVAL: its encoding and refusals, and the verdict on nibble i as its result, NONE, AUX 0. -/
def Obligations.DvalTellsWhetherTheNibbleIsADigit : Prop :=
  (∀ (w : Width) (c : CmdWord),
    (∀ i, decode w c = .ok (.dval i) ↔ c &&& 0xFF0F = 0x0003 ∧ i = c.extractLsb' 4 4 ∧ i.toNat < w.digits) ∧
    (c.extractLsb' 0 4 = 3 → (c.extractLsb' 8 4 ≠ 0 ∨ c.extractLsb' 12 4 ≠ 0) → decode w c = .error .reservedField) ∧
    (c &&& 0xFF0F = 0x0003 → w.digits ≤ (c.extractLsb' 4 4).toNat → decode w c = .error .indexRange)) ∧
  (∀ (s : State) (q : Request) (i : Nibble), s.request = some q →
    (i.toNat < s.width.digits → ∃ r : Word,
      r = (if (s.opA q).toNat / 16 ^ i.toNat % 16 ≤ 9 then 1 else 0) ∧
      Answers s (.dval i) { r := r, err := .none, aux := 0, obuf := q.obuf }) ∧
    (s.width.digits ≤ i.toNat → exec (.dval i) s = .refused .indexRange))

/-- R80: the codec commands are accepted only with an index below D; accepted, they always answer NONE, AUX 0 and OBUF
unchanged, and their result is that of any other accepted request with the same A, at the same width. -/
def Obligations.CodecNeverSignalsAnError : Prop :=
  ∀ (s s' : State) (q q' : Request) (i : Instr) (p : Response),
    (∃ k n, i = .dget k ∨ i = .dset k n ∨ i = .dval k) → s.request = some q → s'.request = some q' →
    s.width = s'.width → s.opA q = s'.opA q' → Answers s i p →
    wellFormed s.width i = true ∧ p.err = .none ∧ p.aux = 0 ∧ p.obuf = q.obuf ∧
      ∃ p', Answers s' i p' ∧ p'.r = p.r

/-- R85: the laws (a) to (g) of the codec, on the results of its commands.
The spec marks the rule as derived from R81, R82, R83 and R27. -/
def Obligations.CodecLaws : Prop :=
  ∀ (w : Width) (a : Word) (i j n m : Nibble), wordFits w a → i.toNat < w.digits → j.toNat < w.digits → i ≠ j →
    ∃ g gj x y z zj dv : Response,
      resultOf w (.dget i) a 0 = some g ∧ resultOf w (.dget j) a 0 = some gj ∧
      resultOf w (.dset i n) a 0 = some x ∧ resultOf w (.dset j m) a 0 = some y ∧
      resultOf w (.dset i m) a 0 = some z ∧ resultOf w (.dset j m) x.r 0 = some zj ∧
      resultOf w (.dval i) a 0 = some dv ∧
      (resultOf w (.dget i) x.r 0).map (·.r) = some (n.setWidth 64) ∧
      (resultOf w (.dget j) x.r 0).map (·.r) = some gj.r ∧
      (resultOf w (.dset i (g.r.setWidth 4)) a 0).map (·.r) = some a ∧
      (resultOf w (.dset i m) x.r 0).map (·.r) = some z.r ∧
      (resultOf w (.dset i n) y.r 0).map (·.r) = some zj.r ∧
      (dv.r = 1 ↔ g.r.toNat ≤ 9) ∧
      (valid w a = true ↔
        ∀ k : Nibble, k.toNat < w.digits → (resultOf w (.dval k) a 0).map (·.r) = some 1)

/-! ### Binary-BCD Converter (41_binary_bcd.md) -/

/-- R90, B2BCD: its one word; A ≥ 10^D answers OVERFLOW with an unspecified word; otherwise NONE with A's decimal digits. -/
def Obligations.BinaryToBcdPacksTheDigits : Prop :=
  HasOneWord .b2bcd 0x0004 ∧
  ∀ (s : State) (q : Request), s.request = some q →
    (10 ^ s.width.digits ≤ (s.opA q).toNat → ∃ r : Word, wordFits s.width r ∧
      Answers s .b2bcd { r := r, err := .overflow, aux := 0, obuf := q.obuf }) ∧
    ((s.opA q).toNat < 10 ^ s.width.digits → ∃ r : Word, wordFits s.width r ∧
      (∀ j, j < s.width.digits → r.toNat / 16 ^ j % 16 = (s.opA q).toNat / 10 ^ j % 10) ∧
      Answers s .b2bcd { r := r, err := .none, aux := 0, obuf := q.obuf })

/-- R91, BCD2B: its one word; the result is the place-value sum of the raw nibbles, INVALID_DIGIT exactly when one of
them exceeds 9, and otherwise NONE. -/
def Obligations.BcdToBinaryAccumulatesTheNibbles : Prop :=
  HasOneWord .bcd2b 0x0005 ∧
  ∀ (s : State) (q : Request), s.request = some q →
    ∃ (r : Word) (e : ErrSignal),
      r.toNat = ∑ i ∈ Finset.range s.width.digits, (s.opA q).toNat / 16 ^ i % 16 * 10 ^ i ∧
      (e = .invalidDigit ↔ ∃ i, i < s.width.digits ∧ 9 < (s.opA q).toNat / 16 ^ i % 16) ∧ e ≠ .overflow ∧
      Answers s .bcd2b { r := r, err := e, aux := 0, obuf := q.obuf }

/-- R92: (a) B2BCD then BCD2B gives back every binary value below 10^D; (b) BCD2B then B2BCD gives back every valid word;
all four with NONE.
The spec marks the rule as derived from R90, R91 and R29. -/
def Obligations.ConversionsRoundTrip : Prop :=
  ∀ (w : Width),
    (∀ v, v < w.limit → ∃ p p', resultOf w .b2bcd (BitVec.ofNat 64 v) 0 = some p ∧ p.err = .none ∧
      resultOf w .bcd2b p.r 0 = some p' ∧ p'.err = .none ∧ p'.r.toNat = v) ∧
    (∀ b, wordFits w b → valid w b = true → ∃ p p', resultOf w .bcd2b b 0 = some p ∧ p.err = .none ∧
      p.r.toNat < w.limit ∧ resultOf w .b2bcd p.r 0 = some p' ∧ p'.err = .none ∧ p'.r = b)

/-- R93: 10^D is a W-bit input, for which B2BCD signals OVERFLOW, and it succeeds on 10^D - 1.
The spec marks the rule as derived from R90 and R7. -/
def Obligations.BinaryToBcdOverflowsAtTheLimit : Prop :=
  ∀ (w : Width), 10 ^ w.digits ≤ 2 ^ w.bits - 1 ∧
    (resultOf w .b2bcd (BitVec.ofNat 64 (10 ^ w.digits)) 0).map (·.err) = some .overflow ∧
    (resultOf w .b2bcd (BitVec.ofNat 64 (10 ^ w.digits - 1)) 0).map (·.err) = some .none

/-! ### Text Converter (42_text.md) -/

/-- R101, S2BCD: its one word; AUX is the length of the maximal run of digit bytes from offset 0 of IBUF; a run whose value
is 10^D or more answers OVERFLOW with an unspecified word, any other NONE with the digits of its value. -/
def Obligations.TextToBcdReadsTheMaximalRun : Prop :=
  HasOneWord .s2bcd 0x0006 ∧
  ∀ (s : State) (q : Request), s.request = some q →
    ∃ run : List Byte,
      run.length ≤ q.ibuf.size ∧ (∀ k, k < run.length → run[k]? = q.ibuf.read k) ∧
      (∀ c ∈ run, 0x30 ≤ c.toNat ∧ c.toNat ≤ 0x39) ∧
      (∀ c, q.ibuf.read run.length = some c → ¬ (0x30 ≤ c.toNat ∧ c.toNat ≤ 0x39)) ∧
      (10 ^ s.width.digits ≤ textValue 0 run → ∃ r : Word, wordFits s.width r ∧
        Answers s .s2bcd { r := r, err := .overflow, aux := run.length, obuf := q.obuf }) ∧
      (textValue 0 run < 10 ^ s.width.digits → ∃ r : Word, wordFits s.width r ∧
        (∀ j, j < s.width.digits → r.toNat / 16 ^ j % 16 = textValue 0 run / 10 ^ j % 10) ∧
        Answers s .s2bcd { r := r, err := .none, aux := run.length, obuf := q.obuf })

/-- R102: the nibble form of the accumulation loses a nonzero digit exactly when the value is 10^D or more, and where it
loses none its word is the packing of the value. So S2BCD's ERR is OVERFLOW exactly when the nibble form of its digit run
loses a digit, and NONE with the nibble form's word when it does not.
The spec marks the rule as derived from R101 and R29. -/
def Obligations.ShiftAndAddAgreesWithTheValue : Prop :=
  ∀ (w : Width) (ds : List Nat), (∀ d ∈ ds, d ≤ 9) →
    ((shiftAdd w ds 0 false).2 = true ↔ w.limit ≤ digitsValue ds) ∧
    ((shiftAdd w ds 0 false).2 = false → (shiftAdd w ds 0 false).1 = pack w (digitsValue ds)) ∧
    ∀ (s : State) (q : Request) (p : Response), s.width = w → s.request = some q →
      ds = (digitRun q.ibuf).map digitByteValue → Answers s .s2bcd p →
      (p.err = .overflow ↔ (shiftAdd w ds 0 false).2 = true) ∧
      ((shiftAdd w ds 0 false).2 = false → p.err = .none ∧ p.r = (shiftAdd w ds 0 false).1)

/-- R104, BCD2S: its one word; an OBUF shorter than CAP is refused (not R104's, which refuses no capacity, but the HOST_DUTY
rows of R147 and R151 H-c); an invalid A answers INVALID_DIGIT whatever CAP is, with
the offsets below min(CAP, D+1) and AUX unspecified; a valid A with CAP < D+1 answers OVERFLOW with nothing written and
AUX 0; otherwise NONE, with the significant digits most significant first, a NUL, and AUX their count. R is 0 throughout. -/
def Obligations.BcdToTextWritesTheSignificantDigits : Prop :=
  HasOneWord .bcd2s 0x0007 ∧
  ∀ (s : State) (q : Request), s.request = some q → q.obuf.wf = true →
    let cap := (s.opB q).toNat
    let n := sig s.width (s.opA q)
    (q.obuf.size < cap → exec .bcd2s s = .refused .hostDuty) ∧
    (cap ≤ q.obuf.size → valid s.width (s.opA q) = false → ∃ (m : Memory) (aux : Nat), m.size = q.obuf.size ∧
      (∀ k, min cap (s.width.digits + 1) ≤ k → m.read k = q.obuf.read k) ∧
      Answers s .bcd2s { r := 0, err := .invalidDigit, aux := aux, obuf := m }) ∧
    (cap ≤ q.obuf.size → valid s.width (s.opA q) = true → cap < s.width.digits + 1 →
      Answers s .bcd2s { r := 0, err := .overflow, aux := 0, obuf := q.obuf }) ∧
    (cap ≤ q.obuf.size → valid s.width (s.opA q) = true → s.width.digits + 1 ≤ cap → ∃ m : Memory,
      m.size = q.obuf.size ∧
      (∀ k, m.read k =
        if k < n then some (BitVec.ofNat 8 (0x30 + (s.opA q).toNat / 16 ^ (n - 1 - k) % 16))
        else if k = n then some 0x00 else q.obuf.read k) ∧
      Answers s .bcd2s { r := 0, err := .none, aux := n, obuf := m })

/-- R105: on NONE the written text is the decimal text of val(A), without a leading zero unless A's reading is 0, which is
written as the single digit 0.
The spec marks the rule as derived from R103 and R104. -/
def Obligations.FormattedTextIsMinimal : Prop :=
  ∀ (s : State) (q : Request) (p : Response), s.request = some q → q.obuf.wf = true → Answers s .bcd2s p →
    p.err = .none →
      (∀ c ∈ p.obuf.bytes p.aux, 0x30 ≤ c.toNat ∧ c.toNat ≤ 0x39) ∧
      textValue 0 (p.obuf.bytes p.aux) = val s.width (s.opA q) ∧
      (val s.width (s.opA q) ≠ 0 → (p.obuf.bytes p.aux).head? ≠ some 0x30) ∧
      (val s.width (s.opA q) = 0 → p.obuf.bytes p.aux = [0x30])

/-- R106: formatting pack(v) into a sufficient buffer and parsing the written digits, with the terminator after them or
nothing, gives pack(v) and NONE, with the cursor at the end of the digits; the text has no leading zero unless v is 0.
The spec marks the rule as derived from R101, R104 and R90. -/
def Obligations.TextRoundTrips : Prop :=
  ∀ (s : State) (q : Request) (v : Nat), s.request = some q → v < s.width.limit → s.opA q = pack s.width v →
    s.width.digits + 1 ≤ s.cap q → s.cap q ≤ q.obuf.size → q.obuf.wf = true →
    ∃ p, Answers s .bcd2s p ∧ p.err = .none ∧
      ((p.obuf.bytes p.aux).head? = some 0x30 → v = 0 ∧ p.obuf.bytes p.aux = [0x30]) ∧
      ∀ (s' : State) (q' : Request) (rest : List Byte), s'.width = s.width → s'.request = some q' →
        rest = [] ∨ rest = [0x00] → q'.ibuf = Memory.ofBytes (p.obuf.bytes p.aux ++ rest) →
        ∃ p', Answers s' .s2bcd p' ∧ p'.r = pack s.width v ∧ p'.err = .none ∧ p'.aux = p.aux

/-! ### BCD Arithmetic (43_arithmetic.md) -/

/-- R120: BADD and BMUL with an invalid operand, on either side, answer INVALID_DIGIT with an unspecified word. -/
def Obligations.ArithmeticValidatesItsOperands : Prop :=
  ∀ (s : State) (q : Request) (i : Instr), s.request = some q → i = .badd ∨ i = .bmul →
    (∃ k, k < s.width.digits ∧ (9 < (s.opA q).toNat / 16 ^ k % 16 ∨ 9 < (s.opB q).toNat / 16 ^ k % 16)) →
    ∃ r : Word, wordFits s.width r ∧ Answers s i { r := r, err := .invalidDigit, aux := 0, obuf := q.obuf }

/-- R121, BADD: its one word; an invalid operand answers INVALID_DIGIT with an unspecified word; on valid operands, with
S = val(A) + val(B), the result is the packing of S mod 10^D, and ERR is OVERFLOW exactly when S ≥ 10^D, else NONE. -/
def Obligations.AdditionIsDecimalAddition : Prop :=
  HasOneWord .badd 0x0008 ∧
  ∀ (s : State) (q : Request), s.request = some q →
    (valid s.width (s.opA q) = false ∨ valid s.width (s.opB q) = false → ∃ r : Word, wordFits s.width r ∧
      Answers s .badd { r := r, err := .invalidDigit, aux := 0, obuf := q.obuf }) ∧
    (valid s.width (s.opA q) = true → valid s.width (s.opB q) = true →
      ∃ (r : Word) (e : ErrSignal), wordFits s.width r ∧ valid s.width r = true ∧
        val s.width r = (val s.width (s.opA q) + val s.width (s.opB q)) % 10 ^ s.width.digits ∧
        (e = .overflow ↔ 10 ^ s.width.digits ≤ val s.width (s.opA q) + val s.width (s.opB q)) ∧ e ≠ .invalidDigit ∧
        Answers s .badd { r := r, err := e, aux := 0, obuf := q.obuf })

/-- R122: after the digits below n the loop of R121 has emitted digits that, with the carry at place n, are the sum of the
two words' digits below n; the carry is 0 or 1. After all D digits the carry is 1 exactly when S ≥ 10^D, and the word is
the packing of S mod 10^D.
The spec marks the rule as derived from R121 and R29. -/
def Obligations.AdditionCarriesDigitByDigit : Prop :=
  ∀ (w : Width) (a b : Word), valid w a = true → valid w b = true →
    (∀ n, n ≤ w.digits →
      ∑ i ∈ Finset.range n, (nib (addFrom a b n 0 0 0).1 i).toNat * 10 ^ i + (addFrom a b n 0 0 0).2 * 10 ^ n =
        ∑ i ∈ Finset.range n, (nib a i).toNat * 10 ^ i + ∑ i ∈ Finset.range n, (nib b i).toNat * 10 ^ i ∧
      (∀ i, i < n → (nib (addFrom a b n 0 0 0).1 i).toNat ≤ 9) ∧ (addFrom a b n 0 0 0).2 ≤ 1) ∧
    ((addFrom a b w.digits 0 0 0).2 = 1 ↔ 10 ^ w.digits ≤ val w a + val w b) ∧
    (addFrom a b w.digits 0 0 0).1 = pack w ((val w a + val w b) % 10 ^ w.digits) ∧
    val w a + val w b ≤ 2 * 10 ^ w.digits - 2

/-- R123, BMUL: its one word; an invalid operand answers INVALID_DIGIT with an unspecified word; on valid operands, with
P = val(A) * val(B), NONE and the packing of P where P < 10^D, else OVERFLOW and the all-ones word. -/
def Obligations.MultiplicationIsDecimalMultiplication : Prop :=
  HasOneWord .bmul 0x0009 ∧
  ∀ (s : State) (q : Request), s.request = some q →
    (valid s.width (s.opA q) = false ∨ valid s.width (s.opB q) = false → ∃ r : Word, wordFits s.width r ∧
      Answers s .bmul { r := r, err := .invalidDigit, aux := 0, obuf := q.obuf }) ∧
    (valid s.width (s.opA q) = true → valid s.width (s.opB q) = true →
      (val s.width (s.opA q) * val s.width (s.opB q) < 10 ^ s.width.digits →
        ∃ r : Word, wordFits s.width r ∧ valid s.width r = true ∧
          val s.width r = val s.width (s.opA q) * val s.width (s.opB q) ∧
          Answers s .bmul { r := r, err := .none, aux := 0, obuf := q.obuf }) ∧
      (10 ^ s.width.digits ≤ val s.width (s.opA q) * val s.width (s.opB q) →
        ∃ r : Word, r.toNat = 2 ^ s.width.bits - 1 ∧
          Answers s .bmul { r := r, err := .overflow, aux := 0, obuf := q.obuf }))

/-- R125: after normalisation the accumulator's 2D cells are the decimal digits of P, least significant first, with no
carry out; so a cell from D on is nonzero exactly when P ≥ 10^D, and a product without one is the packing of P.
The spec marks the rule as derived from R123 and R29. -/
def Obligations.NormalisedAccumulatorHoldsTheProductDigits : Prop :=
  ∀ (w : Width) (a b : Word), valid w a = true → valid w b = true →
    let ds := (normalise 0 (mulAccumulate w a b)).1
    ds.length = 2 * w.digits ∧ (normalise 0 (mulAccumulate w a b)).2 = 0 ∧
    (∀ k, k < 2 * w.digits → ds[k]? = some (val w a * val w b / 10 ^ k % 10)) ∧
    ((∃ k d, w.digits ≤ k ∧ ds[k]? = some d ∧ d ≠ 0) ↔ 10 ^ w.digits ≤ val w a * val w b) ∧
    ((mulResult w a b).2 = .none → (mulResult w a b).1 = pack w (val w a * val w b))

/-- R124: before normalisation cell k of the digit accumulator is at most 81 min(k+1, 2D-1-k, D); the carry into cell k
stays at most 9 D, and the sum normalised there at most 90 D.
The spec marks the rule as derived from R123. -/
def Obligations.AccumulatorCellsStaySmall : Prop :=
  ∀ (w : Width) (a b : Word), valid w a = true → valid w b = true →
    (mulAccumulate w a b).length = 2 * w.digits ∧
    ∀ k cell, (mulAccumulate w a b)[k]? = some cell →
      cell ≤ 81 * min (k + 1) (min (2 * w.digits - 1 - k) w.digits) ∧
      (normalise 0 ((mulAccumulate w a b).take k)).2 ≤ 9 * w.digits ∧
      cell + (normalise 0 ((mulAccumulate w a b).take k)).2 ≤ 90 * w.digits

/-- R126 (a) to (d), and (e) for the error: adding 0, commutation of BADD and BMUL in R and ERR, multiplying by 0, on valid
words; and INVALID_DIGIT for an invalid operand on either side.
The spec marks the rule as derived from R120 to R123 and R125. -/
def Obligations.ArithmeticLaws : Prop :=
  ∀ (w : Width) (x y : Word), wordFits w x → wordFits w y →
    (valid w x = true →
      (resultOf w .badd x 0).map (fun p => (p.r, p.err)) = some (x, .none) ∧
      (resultOf w .bmul x 0).map (fun p => (p.r, p.err)) = some (0, .none)) ∧
    (valid w x = true → valid w y = true → ∀ i, i = .badd ∨ i = .bmul →
      ∃ p p', resultOf w i x y = some p ∧ resultOf w i y x = some p' ∧ p.r = p'.r ∧ p.err = p'.err) ∧
    (valid w x = false → ∀ i, i = .badd ∨ i = .bmul →
      (resultOf w i x y).map (·.err) = some .invalidDigit ∧ (resultOf w i y x).map (·.err) = some .invalidDigit)

/-- The word BMUL answers on OVERFLOW is never a valid result, and the word BADD answers on OVERFLOW is always valid. -/
def Obligations.OverflowWordsAreToldApart : Prop :=
  ∀ (s : State) (p : Response), s.request ≠ none →
    (Answers s .bmul p → p.err = .overflow → valid s.width p.r = false) ∧
    (Answers s .badd p → p.err = .overflow → valid s.width p.r = true)

/-! ### The error signal (60_exceptions.md) -/

/-- R26: the two bits of each error signal, and that 0b11 is none of them. -/
def Obligations.ErrorSignalHasThreeCodes : Prop :=
  ErrSignal.code .none = 0b00 ∧ ErrSignal.code .invalidDigit = 0b01 ∧ ErrSignal.code .overflow = 0b10 ∧
  ∀ e : ErrSignal, e.code ≠ 0b11

/-- R141: which operation signals which condition, and when. -/
def Obligations.ErrorConditions : Prop :=
  ∀ (s : State) (q : Request) (p : Response), s.request = some q →
    let w := s.width
    let a := s.opA q
    let b := s.opB q
    (∀ k n, (Answers s (.dget k) p ∨ Answers s (.dset k n) p ∨ Answers s (.dval k) p) → p.err = .none) ∧
    (Answers s .b2bcd p → p.err ≠ .invalidDigit ∧ (p.err = .overflow ↔ w.limit ≤ a.toNat)) ∧
    (Answers s .bcd2b p → (p.err = .invalidDigit ↔ valid w a = false) ∧ p.err ≠ .overflow) ∧
    (Answers s .s2bcd p → p.err ≠ .invalidDigit ∧ (p.err = .overflow ↔ w.limit ≤ textValue 0 (digitRun q.ibuf))) ∧
    (Answers s .bcd2s p → (p.err = .invalidDigit ↔ valid w a = false) ∧
      (p.err = .overflow ↔ valid w a = true ∧ s.cap q < w.digits + 1)) ∧
    (Answers s .badd p → (p.err = .invalidDigit ↔ valid w a = false ∨ valid w b = false) ∧
      (p.err = .overflow ↔ (valid w a = true ∧ valid w b = true) ∧ w.limit ≤ val w a + val w b)) ∧
    (Answers s .bmul p → (p.err = .invalidDigit ↔ valid w a = false ∨ valid w b = false) ∧
      (p.err = .overflow ↔ (valid w a = true ∧ valid w b = true) ∧ w.limit ≤ val w a * val w b))

/-- R143: the result, AUX and OBUF delivered with each error. A drawn word is any W-bit word, and a drawn count or byte any
at all, so nothing more is said of them here. -/
def Obligations.ResultsDeliveredWithAnError : Prop :=
  ∀ (s : State) (q : Request) (p : Response), s.request = some q → q.obuf.wf = true →
    let w := s.width
    (Answers s .b2bcd p → p.err = .overflow → wordFits w p.r ∧ p.aux = 0 ∧ p.obuf = q.obuf) ∧
    (Answers s .bcd2b p → p.err = .invalidDigit → p.r.toNat = val w (s.opA q) ∧ p.aux = 0 ∧ p.obuf = q.obuf) ∧
    (Answers s .s2bcd p → p.err = .overflow → wordFits w p.r ∧ p.aux = (digitRun q.ibuf).length ∧ p.obuf = q.obuf) ∧
    (Answers s .bcd2s p → p.err = .invalidDigit → p.r = 0 ∧
      ∀ k, min (s.cap q) (w.digits + 1) ≤ k → p.obuf.read k = q.obuf.read k) ∧
    (Answers s .bcd2s p → p.err = .overflow → p.r = 0 ∧ p.aux = 0 ∧ p.obuf = q.obuf) ∧
    (Answers s .badd p → p.err = .invalidDigit → wordFits w p.r ∧ p.aux = 0 ∧ p.obuf = q.obuf) ∧
    (Answers s .badd p → p.err = .overflow →
      p.r = pack w (val w (s.opA q) + val w (s.opB q) - w.limit) ∧ p.aux = 0 ∧ p.obuf = q.obuf) ∧
    (Answers s .bmul p → p.err = .invalidDigit → wordFits w p.r ∧ p.aux = 0 ∧ p.obuf = q.obuf) ∧
    (Answers s .bmul p → p.err = .overflow → p.r.toNat = 2 ^ w.bits - 1 ∧ p.aux = 0 ∧ p.obuf = q.obuf)

/-- The model's choice of where a drawn value comes from (log 3): a word, count or byte the spec leaves unspecified is a
free value at the state's place in the sequence of draws, and the place moves past every value taken; every other answer
takes none. The place never falls back, through any instruction, run of requests or reset, so no value is drawn twice. -/
def Obligations.UnspecifiedResultsAreFreshFreeValues : Prop :=
  (∀ (s t : State) (q : Request) (p : Response), s.request = some q → q.obuf.wf = true → t.response = some p →
    let spoiled := min (s.cap q) (s.width.digits + 1)
    (exec .b2bcd s = .next t → p.err = .overflow → p.r = s.drawWord ∧ t.drawCount = s.drawCount + 1) ∧
    (exec .s2bcd s = .next t → p.err = .overflow → p.r = s.drawWord ∧ t.drawCount = s.drawCount + 1) ∧
    (exec .badd s = .next t → p.err = .invalidDigit → p.r = s.drawWord ∧ t.drawCount = s.drawCount + 1) ∧
    (exec .bmul s = .next t → p.err = .invalidDigit → p.r = s.drawWord ∧ t.drawCount = s.drawCount + 1) ∧
    (exec .bcd2s s = .next t → p.err = .invalidDigit →
      (∀ k, k < spoiled → p.obuf.read k = some (s.drawByte k)) ∧ p.aux = s.drawNat spoiled ∧
      t.drawCount = s.drawCount + (spoiled + 1)) ∧
    (∀ i, exec i s = .next t →
      p.err = .none ∨ i = .bcd2b ∨ ((i = .bcd2s ∨ i = .badd ∨ i = .bmul) ∧ p.err = .overflow) →
      t.drawCount = s.drawCount)) ∧
  (∀ s t : State,
    (∀ i, exec i s = .next t → s.drawCount ≤ t.drawCount) ∧
    (∀ qs, serveAll qs s = .next t → s.drawCount ≤ t.drawCount) ∧
    (s.coreReset = some t → s.drawCount ≤ t.drawCount))

/-! ### The host script (30_encoding.md R71) -/

/-- R71: a statement `t = <request>` issues one request to the core; a refused one stops the script in that refusal, and an
accepted one binds t to the response and goes on with the next statement, the script itself unchanged. -/
def Obligations.ScriptStatementIssuesOneRequest : Prop :=
  ∀ (h : HostState) (lbl : Option Name) (t : Name) (line : AsmLine) (q : Request),
    h.halted = false → h.script[h.index]? = some { label := lbl, stmt := .issue t line } →
    line.request h.core.width h.env = .ok q →
    (∀ r, step (h.core.present q) = .refused r → hostStep h = .refused r) ∧
    (∀ c, step (h.core.present q) = .next c → ∃ h' p, hostStep h = .next h' ∧ h'.core = c ∧ c.response = some p ∧
      lookupName t h'.env.vars = some p ∧ h'.index = h.index + 1 ∧ h'.script = h.script ∧ h'.halted = false)
end

