-- ==== Sys2Proof/Laws/Decode.lean ====
section
/-! SUPPORT. The four fields of a command word, and what the decoder's format checks answer. -/

namespace Sys2Proof

/-- A command word is its four fields (30_encoding.md R61). -/
theorem cmdWord_ext {c d : CmdWord} (h0 : opField c = opField d) (h1 : idxField c = idxField d)
    (h2 : nibField c = nibField d) (h3 : rsvField c = rsvField d) : c = d := by
  apply BitVec.eq_of_getLsbD_eq
  intro i hi
  have key : ∀ (s : Nat), c.extractLsb' s 4 = d.extractLsb' s 4 → s ≤ i → i < s + 4 → c.getLsbD i = d.getLsbD i := by
    intro s h hs hi'
    have := congrArg (fun x => x.getLsbD (i - s)) h
    simpa [BitVec.getLsbD_extractLsb', show i - s < 4 by omega, show s + (i - s) = i by omega] using this
  by_cases a1 : i < 4
  · exact key 0 h0 (by omega) (by omega)
  · by_cases a2 : i < 8
    · exact key 4 h1 (by omega) (by omega)
    · by_cases a3 : i < 12
      · exact key 8 h2 (by omega) (by omega)
      · exact key 12 h3 (by omega) (by omega)

theorem opField_and (c d : CmdWord) : opField (c &&& d) = opField c &&& opField d := by
  ext i hi; simp [opField]

theorem idxField_and (c d : CmdWord) : idxField (c &&& d) = idxField c &&& idxField d := by
  ext i hi; simp [idxField]

theorem nibField_and (c d : CmdWord) : nibField (c &&& d) = nibField c &&& nibField d := by
  ext i hi; simp [nibField]

theorem rsvField_and (c d : CmdWord) : rsvField (c &&& d) = rsvField c &&& rsvField d := by
  ext i hi; simp [rsvField]

/-- Masking and matching a command word, field by field (R64). -/
theorem and_eq_iff_fields (c m v : CmdWord) :
    c &&& m = v ↔ opField c &&& opField m = opField v ∧ idxField c &&& idxField m = idxField v ∧
      nibField c &&& nibField m = nibField v ∧ rsvField c &&& rsvField m = rsvField v := by
  constructor
  · rintro rfl
    exact ⟨(opField_and c m).symm, (idxField_and c m).symm, (nibField_and c m).symm, (rsvField_and c m).symm⟩
  · rintro ⟨h0, h1, h2, h3⟩
    apply cmdWord_ext
    · rw [opField_and, h0]
    · rw [idxField_and, h1]
    · rw [nibField_and, h2]
    · rw [rsvField_and, h3]

/-- The fields of a word with given fields. -/
theorem fields_commandWord (op : Nibble) (idx nib : Nibble) :
    opField (commandWord (op.setWidth 16) idx nib) = op ∧ idxField (commandWord (op.setWidth 16) idx nib) = idx ∧
      nibField (commandWord (op.setWidth 16) idx nib) = nib ∧ rsvField (commandWord (op.setWidth 16) idx nib) = 0 := by
  have h4 : ∀ (x : Nibble) (k : Nat), 4 ≤ k → x.getLsbD k = false := fun x k hk => BitVec.getLsbD_of_ge x k hk
  refine ⟨?_, ?_, ?_, ?_⟩
  all_goals
    apply BitVec.eq_of_getLsbD_eq
    intro k hk
    have h16 : k < 16 := by omega
    simp only [opField, idxField, nibField, rsvField, commandWord, BitVec.getLsbD_extractLsb', BitVec.getLsbD_or,
      BitVec.getLsbD_shiftLeft, BitVec.getLsbD_setWidth]
  · simp [hk, h16, show k < 8 by omega]
  · simp [hk, h16, show 4 + k < 16 by omega, show 4 + k < 8 by omega]
  · simp [hk, h16, show 8 + k < 16 by omega, h4 op (8 + k) (by omega), h4 idx (8 + k - 4) (by omega)]
  · simp [hk, show 12 + k < 16 by omega, h4 op (12 + k) (by omega), h4 idx (12 + k - 4) (by omega),
      h4 nib (12 + k - 8) (by omega)]

/-- Format C with NIB accepts exactly a zero RSV. -/
theorem formatC_eq_ok (c : CmdWord) (mk : Nibble → Nibble → Instr) (i : Instr) :
    formatC c mk = .ok i ↔ rsvField c = 0 ∧ mk (idxField c) (nibField c) = i := by
  unfold formatC
  by_cases h : rsvField c = 0#4 <;> simp [h]

/-- Format C without NIB accepts exactly zero RSV and NIB. -/
theorem formatCNoNib_eq_ok (c : CmdWord) (mk : Nibble → Instr) (i : Instr) :
    formatCNoNib c mk = .ok i ↔ rsvField c = 0 ∧ nibField c = 0 ∧ mk (idxField c) = i := by
  unfold formatCNoNib
  by_cases h : rsvField c = 0#4 <;> by_cases h' : nibField c = 0#4 <;> simp [h, h']

/-- Format W accepts exactly zero RSV, NIB and IDX. -/
theorem formatW_eq_ok (c : CmdWord) (j i : Instr) :
    formatW c j = .ok i ↔ rsvField c = 0 ∧ nibField c = 0 ∧ idxField c = 0 ∧ j = i := by
  unfold formatW
  by_cases h : rsvField c = 0#4 <;> by_cases h' : nibField c = 0#4 <;> by_cases h'' : idxField c = 0#4 <;> simp [h, h', h'']

/-- Which words the field checks accept as which instruction (R61, R62, R65). -/
theorem decodeFields_eq_ok (c : CmdWord) (i : Instr) :
    decodeFields c = .ok i ↔
      rsvField c = 0 ∧
        match i with
        | .dget k => opField c = 1 ∧ nibField c = 0 ∧ k = idxField c
        | .dset k n => opField c = 2 ∧ k = idxField c ∧ n = nibField c
        | .dval k => opField c = 3 ∧ nibField c = 0 ∧ k = idxField c
        | .b2bcd => opField c = 4 ∧ nibField c = 0 ∧ idxField c = 0
        | .bcd2b => opField c = 5 ∧ nibField c = 0 ∧ idxField c = 0
        | .s2bcd => opField c = 6 ∧ nibField c = 0 ∧ idxField c = 0
        | .bcd2s => opField c = 7 ∧ nibField c = 0 ∧ idxField c = 0
        | .badd => opField c = 8 ∧ nibField c = 0 ∧ idxField c = 0
        | .bmul => opField c = 9 ∧ nibField c = 0 ∧ idxField c = 0 := by
  have hop := (opField c).isLt
  obtain ⟨n, hn⟩ : ∃ n, (opField c).toNat = n := ⟨_, rfl⟩
  have hne : opField c = BitVec.ofNat 4 n := by rw [← hn]; simp
  rw [hn] at hop
  unfold decodeFields
  rw [hn]
  interval_cases n <;> simp only [formatC_eq_ok, formatCNoNib_eq_ok, formatW_eq_ok] <;> rw [hne] <;>
    cases i <;> simp <;> tauto

/-- The decoder accepts exactly what the field checks accept, with its index in range (R66). -/
theorem decode_eq_ok (w : Width) (c : CmdWord) (i : Instr) :
    decode w c = .ok i ↔ decodeFields c = .ok i ∧ wellFormed w i = true := by
  unfold decode
  split
  · simp [*]
  · rename_i j hj
    split
    · rename_i hw
      rw [hj]
      constructor
      · intro h; cases h; exact ⟨rfl, hw⟩
      · rintro ⟨h, _⟩; cases h; rfl
    · rename_i hw
      rw [hj]
      constructor
      · intro h; cases h
      · rintro ⟨h, h2⟩; cases h; exact absurd h2 hw

/-- A word the field checks refuse is refused for that reason (R65 before R66). -/
theorem decode_of_fields_error (w : Width) {c : CmdWord} {r : DecodeRefusal} (h : decodeFields c = .error r) :
    decode w c = .error r := by
  simp [decode, h]

/-- The opcodes of R65(a) are refused as reserved opcodes. -/
theorem decodeFields_reserved_opcode (c : CmdWord) (h : (opField c).toNat = 0 ∨ 10 ≤ (opField c).toNat) : decodeFields c = .error .reservedOpcode := by
  have hop := (opField c).isLt
  obtain ⟨n, hn⟩ : ∃ n, (opField c).toNat = n := ⟨_, rfl⟩
  unfold decodeFields
  rw [hn] at h hop ⊢
  interval_cases n <;> simp_all

/-- The words of R65(b) to (d) with another opcode are refused for a reserved field. -/
theorem decodeFields_reserved_field (c : CmdWord) (h1 : 1 ≤ (opField c).toNat) (h9 : (opField c).toNat ≤ 9)
   (h : rsvField c ≠ 0 ∨ (((opField c).toNat = 1 ∨ (opField c).toNat = 3) ∧ nibField c ≠ 0) ∨ (4 ≤ (opField c).toNat ∧ (idxField c ≠ 0 ∨ nibField c ≠ 0))) :
   decodeFields c = .error .reservedField := by
  obtain ⟨n, hn⟩ : ∃ n, (opField c).toNat = n := ⟨_, rfl⟩
  unfold decodeFields
  rw [hn] at h1 h9 h ⊢
  by_cases a : rsvField c = 0#4 <;> by_cases b : nibField c = 0#4 <;> by_cases d : idxField c = 0#4 <;>
  interval_cases n <;> simp_all [formatC, formatCNoNib, formatW]

/-- A word whose fields select an instruction with an index out of range is refused for it (R66). -/
theorem decode_of_index (w : Width) {c : CmdWord} {i : Instr} (h : decodeFields c = .ok i)
    (hw : wellFormed w i = false) : decode w c = .error .indexRange := by
  simp [decode, h, hw]

end Sys2Proof
end

