-- ==== Sys2Proof/Laws/Digits.lean ====
section
/-! SUPPORT. What the nibble functions, the decimal reading and the packing do, in natural numbers. -/

namespace Sys2Proof

/-! ### Widths -/

theorem Width.digits_cases (w : Width) : w.digits = 2 ∨ w.digits = 4 ∨ w.digits = 8 ∨ w.digits = 16 := by
  cases w <;> decide

theorem Width.digits_le (w : Width) : w.digits ≤ 16 := by cases w <;> decide

theorem Width.digits_pos (w : Width) : 0 < w.digits := by cases w <;> decide

theorem Width.bits_le (w : Width) : w.bits ≤ 64 := by cases w <;> decide

/-- 2^W = 16^D. -/
theorem Width.two_pow_bits (w : Width) : 2 ^ w.bits = 16 ^ w.digits := by cases w <;> decide

/-- 10^D ≤ 2^W - 1: the fact behind 10_state.md R31(a). -/
theorem Width.limit_lt (w : Width) : w.limit < 2 ^ w.bits := by cases w <;> decide

end Sys2Proof

namespace Sys2Proof.Machine

/-- A truncated word has its value modulo 2^W. -/
theorem trunc_toNat (w : Width) (x : Word) : (Word.trunc w.bits x).toNat = x.toNat % 2 ^ w.bits := by
  have h : x.toNat % 2 ^ w.bits < 2 ^ w.bits := Nat.mod_lt _ (by positivity)
  have h' : 2 ^ w.bits ≤ 2 ^ 64 := Nat.pow_le_pow_right (by norm_num) w.bits_le
  simp only [Word.trunc, BitVec.toNat_ofNat]
  exact Nat.mod_eq_of_lt (by omega)

theorem trunc_lt (w : Width) (x : Word) : (Word.trunc w.bits x).toNat < 2 ^ w.bits := by
  rw [trunc_toNat]
  exact Nat.mod_lt _ (by positivity)

/-- A word of W bits is read as it is. -/
theorem trunc_eq_self (w : Width) (x : Word) (h : x.toNat < 2 ^ w.bits) : Word.trunc w.bits x = x := by
  apply BitVec.eq_of_toNat_eq; rw [trunc_toNat, Nat.mod_eq_of_lt h]

/-! ### Nibbles -/

/-- The raw nibble i is the i-th base-16 digit (00_scope.md R11). -/
theorem nib_toNat (x : Word) (i : Nat) : (nib x i).toNat = x.toNat / 16 ^ i % 16 := by
  simp [nib, BitVec.extractLsb'_toNat, Nat.shiftRight_eq_div_pow, Nat.pow_mul]

theorem nib_lt (x : Word) (i : Nat) : (nib x i).toNat < 16 := (nib x i).isLt

@[simp] theorem nib_zero (i : Nat) : nib 0#64 i = 0#4 := by
  apply BitVec.eq_of_toNat_eq
  simp [nib_toNat]

theorem nib_getLsbD (x : Word) (i k : Nat) : (nib x i).getLsbD k = (decide (k < 4) && x.getLsbD (4 * i + k)) := by
  simp [nib, BitVec.getLsbD_extractLsb']

/-- Bit m of a word is bit m mod 4 of nibble m div 4. -/
theorem getLsbD_eq_nib (x : Word) (m : Nat) : x.getLsbD m = (nib x (m / 4)).getLsbD (m % 4) := by
  rw [nib_getLsbD, Nat.div_add_mod]
  simp [Nat.mod_lt]

/-- Two words with the same sixteen nibbles are equal. -/
theorem word_ext {x y : Word} (h : ∀ i, i < 16 → nib x i = nib y i) : x = y := by
  apply BitVec.eq_of_getLsbD_eq
  intro m hm
  rw [getLsbD_eq_nib x, getLsbD_eq_nib y, h (m / 4) (by omega)]

/-- What a nibble write does: nibble i becomes n, every other nibble stays (40_digit_codec.md R82). -/
theorem nib_setNib (x : Word) (i j : Nat) (n : Nibble) (hi : i < 16) :
    nib (setNib x i n) j = if j = i then n else nib x j := by
  apply BitVec.eq_of_getLsbD_eq
  intro k hk
  have hF : ∀ m, (0xF : Word).getLsbD m = decide (m < 4) := by
    intro m
    by_cases hm : m < 64
    · revert m; decide
    · rw [BitVec.getLsbD_of_ge _ _ (by omega)]; simp; omega
  rw [nib_getLsbD, setNib]
  simp only [BitVec.getLsbD_or, BitVec.getLsbD_and, BitVec.getLsbD_not, BitVec.getLsbD_shiftLeft, hF,
    BitVec.getLsbD_setWidth]
  split
  · subst j
    have h1 : 4 * i + k < 64 := by omega
    have h2 : ¬ 4 * i + k < 4 * i := by omega
    have h3 : 4 * i + k - 4 * i = k := by omega
    simp [h1, h3, hk]
    omega
  · rename_i hne
    rw [nib_getLsbD]
    by_cases hx : 4 * j + k < 64
    · by_cases hlt : 4 * j + k < 4 * i
      · simp [hx, hlt]
      · have h3 : ¬ 4 * j + k - 4 * i < 4 := by omega
        have h4 : n.getLsbD (4 * j + k - 4 * i) = false := BitVec.getLsbD_of_ge _ _ (by omega)
        simp [hx, hlt, h3, h4]
    · have h5 : x.getLsbD (4 * j + k) = false := BitVec.getLsbD_of_ge _ _ (by omega)
      simp [hx, h5]

/-- A nibble from index 16 on is zero: the carrier has 64 bits. -/
theorem nib_of_ge (x : Word) (i : Nat) (h : 16 ≤ i) : nib x i = 0 := by
  apply BitVec.eq_of_getLsbD_eq
  intro k hk
  rw [nib_getLsbD, BitVec.getLsbD_of_ge x _ (by omega)]
  simp

/-- A word is below 16^d exactly when its nibbles from index d on are zero. -/
theorem lt_pow_iff_nib_zero (x : Word) (d : Nat) : x.toNat < 16 ^ d ↔ ∀ i, d ≤ i → nib x i = 0 := by
  constructor
  · intro h i hi
    apply BitVec.eq_of_toNat_eq
    rw [nib_toNat, Nat.div_eq_of_lt (lt_of_lt_of_le h (Nat.pow_le_pow_right (by norm_num) hi))]
    rfl
  · intro h
    have hp : (16 : Nat) ^ d = 2 ^ (4 * d) := by rw [Nat.pow_mul]
    rw [hp]
    apply Nat.lt_pow_two_of_testBit
    intro m hm
    have h1 : x.toNat.testBit m = x.getLsbD m := rfl
    rw [h1, getLsbD_eq_nib, h (m / 4) (by omega)]
    simp

/-- A nibble write below D keeps a W-bit word a W-bit word. -/
theorem setNib_lt (w : Width) (x : Word) (i : Nat) (n : Nibble) (hx : x.toNat < 2 ^ w.bits) (hi : i < w.digits) :
    (setNib x i n).toNat < 2 ^ w.bits := by
  have hD := w.digits_le
  rw [w.two_pow_bits, lt_pow_iff_nib_zero] at *
  intro j hj
  rw [nib_setNib x i j n (by omega), if_neg (by omega), hx j hj]

/-- Two W-bit words with the same D nibbles are equal. -/
theorem word_ext_width (w : Width) {x y : Word} (hx : x.toNat < 2 ^ w.bits) (hy : y.toNat < 2 ^ w.bits)
    (h : ∀ i, i < w.digits → nib x i = nib y i) : x = y := by
  rw [w.two_pow_bits, lt_pow_iff_nib_zero] at hx hy
  apply word_ext
  intro i _
  by_cases hi : i < w.digits
  · exact h i hi
  · rw [hx i (by omega), hy i (by omega)]

theorem digitNibble_toNat (d : Nat) (h : d < 16) : (digitNibble d).toNat = d := by
  simp [digitNibble, Nat.mod_eq_of_lt h]

/-! ### Validity -/

/-- `valid(x)`: every nibble below D is at most 9 (10_state.md R27). -/
theorem valid_iff (w : Width) (x : Word) : valid w x = true ↔ ∀ i, i < w.digits → (nib x i).toNat ≤ 9 := by
  simp [valid, digitOk]

/-! ### The decimal reading -/

/-- The number that nibbles 0..n-1 write in base 10. -/
def digitSum (x : Word) (n : Nat) : Nat := ∑ i ∈ Finset.range n, (nib x i).toNat * 10 ^ i

@[simp] theorem digitSum_zero (x : Word) : digitSum x 0 = 0 := by simp [digitSum]

theorem digitSum_succ (x : Word) (n : Nat) : digitSum x (n + 1) = digitSum x n + (nib x n).toNat * 10 ^ n := by
  simp [digitSum, Finset.sum_range_succ]

theorem digitSum_congr {x y : Word} {n : Nat} (h : ∀ i, i < n → nib x i = nib y i) :
    digitSum x n = digitSum y n := by
  apply Finset.sum_congr rfl
  intro i hi
  rw [h i (Finset.mem_range.mp hi)]

theorem valFrom_eq (x : Word) (i acc : Nat) : valFrom x i acc = acc * 10 ^ i + digitSum x i := by
  induction i generalizing acc with
  | zero => simp [valFrom]
  | succ i ih =>
    rw [valFrom, ih, digitSum_succ, pow_succ]
    ring

/-- `val(x)` is the sum of R28. -/
theorem val_eq (w : Width) (x : Word) : val w x = digitSum x w.digits := by
  simp [val, valFrom_eq]

/-- Valid nibbles read as a number below 10^n. -/
theorem digitSum_lt {x : Word} {n : Nat} (h : ∀ i, i < n → (nib x i).toNat ≤ 9) : digitSum x n < 10 ^ n := by
  induction n with
  | zero => simp
  | succ n ih =>
    have h1 := ih fun i hi => h i (by omega)
    have h2 := h n (by omega)
    have h3 : (nib x n).toNat * 10 ^ n ≤ 9 * 10 ^ n := Nat.mul_le_mul_right _ h2
    rw [digitSum_succ, pow_succ]
    omega

/-- A valid word's reading is below 10^D (R28). -/
theorem val_lt_limit {w : Width} {x : Word} (h : valid w x = true) : val w x < w.limit := by
  rw [val_eq]
  exact digitSum_lt ((valid_iff w x).mp h)

/-- Nine times any word's reading is at most 15 (10^n - 1) (R28). -/
theorem digitSum_le_any (x : Word) (n : Nat) : 9 * digitSum x n + 15 ≤ 15 * 10 ^ n := by
  induction n with
  | zero => simp
  | succ n ih =>
    have h2 : (nib x n).toNat ≤ 15 := by have := nib_lt x n; omega
    have h3 : (nib x n).toNat * 10 ^ n ≤ 15 * 10 ^ n := Nat.mul_le_mul_right _ h2
    rw [digitSum_succ, pow_succ]
    omega

/-- The decimal reading of any word fits in W bits (R31(b)). -/
theorem val_lt_two_pow (w : Width) (x : Word) : val w x < 2 ^ w.bits := by
  have h := digitSum_le_any x w.digits
  rw [val_eq]
  cases w <;> simp [Width.digits, Width.bits] at * <;> omega

/-- The decimal reading of a word, as a word, loses nothing (10_state.md R31(b)). -/
theorem toNat_ofNat_val (w : Width) (x : Word) : (BitVec.ofNat 64 (val w x)).toNat = val w x := by
  have := val_lt_two_pow w x
  have h' : 2 ^ w.bits ≤ 2 ^ 64 := Nat.pow_le_pow_right (by norm_num) w.bits_le
  rw [BitVec.toNat_ofNat]; exact Nat.mod_eq_of_lt (by omega)

/-- The digits of a number from a valid word's reading are its nibbles. -/
theorem digitSum_digit {x : Word} {n : Nat} (h : ∀ i, i < n → (nib x i).toNat ≤ 9) {i : Nat} (hi : i < n) :
    digitSum x n / 10 ^ i % 10 = (nib x i).toNat := by
  induction n with
  | zero => omega
  | succ n ih =>
    have hlow : ∀ i, i < n → (nib x i).toNat ≤ 9 := fun i hi => h i (by omega)
    rw [digitSum_succ]
    rcases Nat.lt_or_ge i n with hlt | hge
    · rw [← ih hlow hlt]
      have hsplit : (nib x n).toNat * 10 ^ n = 10 ^ i * (10 * ((nib x n).toNat * 10 ^ (n - i - 1))) := by
        have : 10 ^ n = 10 ^ i * (10 * 10 ^ (n - i - 1)) := by
          rw [← pow_succ', ← pow_add]; congr 1; omega
        rw [this]; ring
      rw [hsplit, Nat.add_mul_div_left _ _ (by positivity), Nat.add_mul_mod_self_left]
    · have hin : i = n := by omega
      subst hin
      have h9 := h i (by omega)
      rw [Nat.add_mul_div_right _ _ (by positivity), Nat.div_eq_of_lt (digitSum_lt hlow)]
      omega

/-! ### Packing -/

/-- What the packing loop of 41_binary_bcd.md R90 writes. -/
theorem nib_packFrom (todo i v : Nat) (r : Word) (j : Nat) (h : i + todo ≤ 16) :
    nib (packFrom todo i v r) j =
      if i ≤ j ∧ j < i + todo then digitNibble (v / 10 ^ (j - i) % 10) else nib r j := by
  induction todo generalizing i v r with
  | zero => rw [packFrom, if_neg (by omega)]
  | succ todo ih =>
    rw [packFrom, ih _ _ _ (by omega), nib_setNib _ _ _ _ (by omega)]
    by_cases h1 : j = i
    · subst h1; simp
    · by_cases h2 : i + 1 ≤ j ∧ j < i + 1 + todo
      · have hj : j - i = (j - (i + 1)) + 1 := by omega
        rw [if_pos h2, if_pos (by omega), hj, pow_succ', Nat.div_div_eq_div_mul]
      · rw [if_neg h2, if_neg h1, if_neg (by omega)]

/-- Nibble i of `pack(v)` is the i-th decimal digit of v (10_state.md R29). -/
theorem nib_pack (w : Width) (v j : Nat) :
    nib (pack w v) j = if j < w.digits then digitNibble (v / 10 ^ j % 10) else 0 := by
  have hD := w.digits_le
  rw [pack, nib_packFrom _ _ _ _ _ (by omega)]
  simp

theorem nib_pack_toNat (w : Width) (v j : Nat) (h : j < w.digits) : (nib (pack w v) j).toNat = v / 10 ^ j % 10 := by
  rw [nib_pack, if_pos h, digitNibble_toNat _ (by omega)]

theorem pack_valid (w : Width) (v : Nat) : valid w (pack w v) = true := by
  rw [valid_iff]
  intro i hi
  rw [nib_pack_toNat w v i hi]
  omega

theorem pack_lt (w : Width) (v : Nat) : (pack w v).toNat < 2 ^ w.bits := by
  rw [w.two_pow_bits, lt_pow_iff_nib_zero]
  intro i hi
  rw [nib_pack, if_neg (by omega)]

/-- The low n decimal digits of v, read back. -/
theorem sum_decimal_digits (v n : Nat) : ∑ i ∈ Finset.range n, v / 10 ^ i % 10 * 10 ^ i = v % 10 ^ n := by
  induction n with
  | zero => simp [Nat.mod_one]
  | succ n ih =>
    rw [Finset.sum_range_succ, ih, pow_succ, Nat.mod_mul]
    ring

/-- `val(pack(v)) = v mod 10^D`, and so v below 10^D (R29). -/
theorem val_pack (w : Width) (v : Nat) : val w (pack w v) = v % w.limit := by
  rw [val_eq, Width.limit, ← sum_decimal_digits]
  apply Finset.sum_congr rfl
  intro i hi
  rw [nib_pack_toNat w v i (Finset.mem_range.mp hi)]

/-- `pack(val(x)) = x` for a valid W-bit word (R29). -/
theorem pack_val {w : Width} {x : Word} (hx : x.toNat < 2 ^ w.bits) (hv : valid w x = true) : pack w (val w x) = x := by
  apply word_ext_width w (pack_lt w _) hx
  intro i hi
  apply BitVec.eq_of_toNat_eq
  rw [nib_pack_toNat w _ i hi, val_eq, digitSum_digit ((valid_iff w x).mp hv) hi]

/-- Two valid W-bit words with the same reading are equal (R29). -/
theorem val_injective {w : Width} {x y : Word} (hx : x.toNat < 2 ^ w.bits) (hy : y.toNat < 2 ^ w.bits)
    (vx : valid w x = true) (vy : valid w y = true) (h : val w x = val w y) : x = y := by
  rw [← pack_val hx vx, ← pack_val hy vy, h]

/-- A packed word depends on v modulo 10^D only. -/
theorem pack_mod (w : Width) (v : Nat) : pack w (v % w.limit) = pack w v := by
  apply val_injective (pack_lt w _) (pack_lt w _) (pack_valid w _) (pack_valid w _)
  rw [val_pack, val_pack, Nat.mod_mod]

/-! ### Significant digits -/

/-- What the search of 42_text.md R103 finds. -/
theorem sigFrom_spec (x : Word) (n : Nat) :
    (sigFrom x n = 1 ∧ ∀ i, i < n → nib x i = 0) ∨
      (∃ k, k < n ∧ sigFrom x n = k + 1 ∧ nib x k ≠ 0 ∧ ∀ i, k < i → i < n → nib x i = 0) := by
  induction n with
  | zero => left; exact ⟨rfl, fun i hi => absurd hi (by omega)⟩
  | succ n ih =>
    rw [sigFrom]
    by_cases h : nib x n = 0
    · rw [if_neg (by simp [h])]
      rcases ih with ⟨h1, h2⟩ | ⟨k, hk, h1, h2, h3⟩
      · left
        refine ⟨h1, fun i hi => ?_⟩
        rcases Nat.lt_succ_iff_lt_or_eq.mp hi with h' | rfl
        · exact h2 i h'
        · exact h
      · right
        refine ⟨k, by omega, h1, h2, fun i hi hn => ?_⟩
        rcases Nat.lt_succ_iff_lt_or_eq.mp hn with h' | rfl
        · exact h3 i hi h'
        · exact h
    · rw [if_pos h]
      right
      exact ⟨n, by omega, rfl, h, fun i hi hn => absurd hn (by omega)⟩

theorem sig_bounds (w : Width) (x : Word) : 1 ≤ sig w x ∧ sig w x ≤ w.digits := by
  have hD := w.digits_pos
  unfold sig
  rcases sigFrom_spec x w.digits with ⟨h1, _⟩ | ⟨k, hk, h1, _, _⟩ <;> omega

/-- Every nibble from sig(x) on, below D, is zero. -/
theorem nib_above_sig (w : Width) (x : Word) (i : Nat) (h1 : sig w x ≤ i) (h2 : i < w.digits) : nib x i = 0 := by
  unfold sig at h1
  rcases sigFrom_spec x w.digits with ⟨_, h⟩ | ⟨k, _, hk, _, h⟩
  · exact h i h2
  · exact h i (by omega) h2

end Sys2Proof.Machine
end

