-- ==== Sys2Proof/Laws/Memory.lean ====
section
/-! SUPPORT. Byte buffers: a read after a write, and that every operation keeps the canonical form. -/

namespace Sys2Proof.Machine

/-! ### Lists of cells -/

/-- A canonical list from `lo` on gives every offset below `lo` the unlisted byte. -/
theorem cellsRead_below {size lo : Nat} {cs : List Host.Cell} (h : cellsWf size lo cs = true) {k : Nat} (hk : k < lo) :
    cellsRead cs k = Memory.unlisted := by
  induction cs generalizing lo with
  | nil => rfl
  | cons c cs ih =>
    obtain ⟨a, v⟩ := c
    simp only [cellsWf, Bool.and_eq_true, decide_eq_true_eq] at h
    rw [cellsRead, if_neg (by omega)]
    exact ih h.2 (by omega)

/-- A canonical list stays canonical from a lower bound on. -/
theorem cellsWf_mono {size lo lo' : Nat} {cs : List Host.Cell} (h : cellsWf size lo cs = true) (hl : lo' ≤ lo) :
    cellsWf size lo' cs = true := by
  cases cs with
  | nil => rfl
  | cons c cs =>
    obtain ⟨a, v⟩ := c
    simp only [cellsWf, Bool.and_eq_true, decide_eq_true_eq] at h ⊢
    exact ⟨⟨⟨by omega, h.1.1.2⟩, h.1.2⟩, h.2⟩

/-- A write below the size keeps the canonical form. -/
theorem cellsWf_write {size lo : Nat} {cs : List Host.Cell} (h : cellsWf size lo cs = true) {k : Nat} (hlo : lo ≤ k)
    (hk : k < size) (v : Byte) : cellsWf size lo (cellsWrite cs k v) = true := by
  induction cs generalizing lo with
  | nil =>
    rw [cellsWrite]
    split
    · rfl
    · simp [cellsWf, *]
  | cons c cs ih =>
    obtain ⟨a, u⟩ := c
    simp only [cellsWf, Bool.and_eq_true, decide_eq_true_eq] at h
    rw [cellsWrite]
    by_cases h1 : k < a
    · rw [if_pos h1]
      split
      · simp only [cellsWf, Bool.and_eq_true, decide_eq_true_eq]; exact h
      · simp only [cellsWf, Bool.and_eq_true, decide_eq_true_eq]
        exact ⟨⟨⟨hlo, hk⟩, by assumption⟩, ⟨⟨by omega, h.1.1.2⟩, h.1.2⟩, h.2⟩
    · rw [if_neg h1]
      by_cases h2 : k = a
      · rw [if_pos h2]
        split
        · exact cellsWf_mono h.2 (by omega)
        · simp only [cellsWf, Bool.and_eq_true, decide_eq_true_eq]
          exact ⟨⟨⟨hlo, hk⟩, by assumption⟩, by rw [h2]; exact h.2⟩
      · rw [if_neg h2]
        simp only [cellsWf, Bool.and_eq_true, decide_eq_true_eq]
        exact ⟨h.1, ih h.2 (by omega)⟩

/-- A read after a write: the byte written at its offset, the earlier byte elsewhere. -/
theorem cellsRead_write {size lo : Nat} {cs : List Host.Cell} (h : cellsWf size lo cs = true) (k j : Nat) (v : Byte) :
    cellsRead (cellsWrite cs k v) j = if j = k then v else cellsRead cs j := by
  induction cs generalizing lo with
  | nil =>
    rw [cellsWrite]
    by_cases hv : v = Memory.unlisted
    · simp [cellsRead, hv]
    · by_cases hj : j = k
      · simp [cellsRead, hv, hj]
      · simp [cellsRead, hv, hj, Ne.symm hj]
  | cons c cs ih =>
    obtain ⟨a, u⟩ := c
    simp only [cellsWf, Bool.and_eq_true, decide_eq_true_eq] at h
    rw [cellsWrite]
    by_cases h1 : k < a
    · rw [if_pos h1]
      by_cases hj : j = k
      · rw [if_pos hj]
        by_cases hv : v = Memory.unlisted
        · rw [if_pos hv, cellsRead, if_neg (by omega), cellsRead_below h.2 (by omega), hv]
        · rw [if_neg hv, cellsRead, if_pos hj.symm]
      · rw [if_neg hj]
        split
        · rfl
        · rw [cellsRead, if_neg (Ne.symm hj)]
    · rw [if_neg h1]
      by_cases h2 : k = a
      · rw [if_pos h2]
        by_cases hj : j = k
        · rw [if_pos hj]
          by_cases hv : v = Memory.unlisted
          · rw [if_pos hv, cellsRead_below h.2 (by omega), hv]
          · rw [if_neg hv, cellsRead, if_pos hj.symm]
        · rw [if_neg hj]
          conv => rhs; rw [cellsRead, if_neg (by omega)]
          split
          · rfl
          · rw [cellsRead, if_neg (Ne.symm hj)]
      · rw [if_neg h2]
        simp only [cellsRead]
        by_cases hj : a = j
        · rw [if_pos hj, if_pos hj, if_neg (by omega)]
        · rw [if_neg hj, if_neg hj, ih h.2]

/-- Two canonical lists that read the same everywhere are the same list. -/
theorem cells_ext {size lo : Nat} {cs ds : List Host.Cell} (hc : cellsWf size lo cs = true)
    (hd : cellsWf size lo ds = true) (h : ∀ k, cellsRead cs k = cellsRead ds k) : cs = ds := by
  induction cs generalizing lo ds with
  | nil =>
    cases ds with
    | nil => rfl
    | cons d ds =>
      obtain ⟨b, v⟩ := d
      simp only [cellsWf, Bool.and_eq_true, decide_eq_true_eq] at hd
      have := h b
      simp only [cellsRead, if_true] at this
      exact absurd this.symm hd.1.2
  | cons c cs ih =>
    obtain ⟨a, u⟩ := c
    simp only [cellsWf, Bool.and_eq_true, decide_eq_true_eq] at hc
    cases ds with
    | nil =>
      have := h a
      simp only [cellsRead, if_true] at this
      exact absurd this hc.1.2
    | cons d ds =>
      obtain ⟨b, v⟩ := d
      simp only [cellsWf, Bool.and_eq_true, decide_eq_true_eq] at hd
      have hab : a = b := by
        rcases Nat.lt_trichotomy a b with hlt | heq | hgt
        · have := h a
          simp only [cellsRead, if_true] at this
          rw [if_neg (by omega), cellsRead_below hd.2 (by omega)] at this
          exact absurd this hc.1.2
        · exact heq
        · have := h b
          simp only [cellsRead, if_true] at this
          rw [if_neg (by omega), cellsRead_below hc.2 (by omega)] at this
          exact absurd this.symm hd.1.2
      subst hab
      have huv : u = v := by have := h a; simpa [cellsRead] using this
      subst huv
      rw [ih hc.2 hd.2]
      intro k
      by_cases hk : k = a
      · subst hk; rw [cellsRead_below hc.2 (by omega), cellsRead_below hd.2 (by omega)]
      · have := h k
        simp only [cellsRead] at this
        rwa [if_neg (Ne.symm hk), if_neg (Ne.symm hk)] at this

/-! ### Buffers -/

@[simp] theorem Memory.blank_wf (n : Nat) : (Memory.blank n).wf = true := rfl

/-- A read answers exactly below the size. -/
theorem Memory.read_isSome (m : Memory) (k : Nat) : (m.read k).isSome = decide (k < m.size) := by
  unfold Memory.read
  split <;> simp [*]

theorem Memory.read_eq_some {m : Memory} {k : Nat} (h : k < m.size) : m.read k = some (cellsRead m.cells k) := if_pos h

theorem Memory.read_eq_none {m : Memory} {k : Nat} (h : m.size ≤ k) : m.read k = none := if_neg (by omega)

/-- A write answers exactly below the size. -/
theorem Memory.write_isSome (m : Memory) (k : Nat) (b : Byte) : (m.write k b).isSome = decide (k < m.size) := by
  unfold Memory.write
  split <;> simp [*]

/-- What a write that answers does. -/
theorem Memory.write_spec {m m' : Memory} {k : Nat} {b : Byte} (hw : m.wf = true) (h : m.write k b = some m') :
    k < m.size ∧ m'.size = m.size ∧ m'.wf = true ∧ ∀ j, m'.read j = if j = k then some b else m.read j := by
  unfold Memory.write at h
  split at h
  · rename_i hk
    cases h
    refine ⟨hk, rfl, cellsWf_write hw (by omega) hk b, fun j => ?_⟩
    simp only [Memory.read, cellsRead_write hw]
    by_cases hj : j = k
    · simp [hj, hk]
    · simp [hj]
  · cases h

/-- A run of writes answers exactly when its last offset is below the size. -/
theorem Memory.writeFrom_isSome (m : Memory) (k : Nat) (bs : List Byte) :
    (m.writeFrom k bs).isSome = decide (bs = [] ∨ k + bs.length ≤ m.size) := by
  induction bs generalizing m k with
  | nil => simp [Memory.writeFrom]
  | cons b bs ih =>
    rw [Memory.writeFrom]
    unfold Memory.write
    by_cases hk : k < m.size
    · simp only [hk, if_true, ih]
      rcases bs with _ | ⟨c, bs⟩
      · simp; omega
      · simp; omega
    · simp [hk]; omega

/-- What a run of writes that answers does. -/
theorem Memory.writeFrom_spec {m m' : Memory} {k : Nat} {bs : List Byte} (hw : m.wf = true)
    (h : m.writeFrom k bs = some m') :
    m'.size = m.size ∧ m'.wf = true ∧
      ∀ j, m'.read j = if k ≤ j ∧ j < k + bs.length then bs[j - k]? else m.read j := by
  induction bs generalizing m k with
  | nil =>
    cases h
    exact ⟨rfl, hw, fun j => by rw [if_neg (by simp)]⟩
  | cons b bs ih =>
    rw [Memory.writeFrom] at h
    cases hb : m.write k b with
    | none => simp [hb] at h
    | some m1 =>
      simp only [hb] at h
      obtain ⟨_, h2, h3, h4⟩ := Memory.write_spec hw hb
      obtain ⟨h5, h6, h7⟩ := ih h3 h
      refine ⟨h5.trans h2, h6, fun j => ?_⟩
      rw [h7, h4]
      simp only [List.length_cons]
      by_cases h8 : k + 1 ≤ j ∧ j < k + 1 + bs.length
      · have hj : j - k = (j - (k + 1)) + 1 := by omega
        rw [if_pos h8, if_pos (by omega), hj, List.getElem?_cons_succ]
      · rw [if_neg h8]
        by_cases h9 : j = k
        · subst h9; simp
        · rw [if_neg h9, if_neg (by omega)]

/-- Cells of a dense list: canonical. -/
theorem cellsOfBytes_wf (k size : Nat) (bs : List Byte) (h : k + bs.length ≤ size) :
    cellsWf size k (cellsOfBytes k bs) = true := by
  induction bs generalizing k with
  | nil => rfl
  | cons b bs ih =>
    simp only [List.length_cons] at h
    have h1 := ih (k + 1) (by omega)
    rw [cellsOfBytes]
    split
    · exact cellsWf_mono h1 (by omega)
    · simp only [cellsWf, Bool.and_eq_true, decide_eq_true_eq]
      exact ⟨⟨⟨le_refl k, by omega⟩, by assumption⟩, h1⟩

theorem Memory.ofBytes_wf (bs : List Byte) : (Memory.ofBytes bs).wf = true :=
  cellsOfBytes_wf 0 _ bs (by simp [Memory.ofBytes])

@[simp] theorem Memory.ofBytes_size (bs : List Byte) : (Memory.ofBytes bs).size = bs.length := rfl

/-- A dense list is read back. -/
theorem cellsRead_ofBytes (k j : Nat) (bs : List Byte) :
    cellsRead (cellsOfBytes k bs) j = if k ≤ j then bs.getD (j - k) Memory.unlisted else Memory.unlisted := by
  induction bs generalizing k with
  | nil => simp [cellsOfBytes, cellsRead]
  | cons b bs ih =>
    rw [cellsOfBytes]
    by_cases hj : k = j
    · subst hj
      split
      · rename_i hb
        rw [ih, if_neg (by omega)]
        simp [hb]
      · simp [cellsRead]
    · have hstep : cellsRead (cellsOfBytes (k + 1) bs) j =
          if k ≤ j then (b :: bs).getD (j - k) Memory.unlisted else Memory.unlisted := by
        rw [ih]
        by_cases h1 : k + 1 ≤ j
        · have h2 : j - k = (j - (k + 1)) + 1 := by omega
          rw [if_pos h1, if_pos (by omega), h2, List.getD_cons_succ]
        · rw [if_neg h1, if_neg (by omega)]
      split
      · exact hstep
      · rw [cellsRead, if_neg hj]; exact hstep

/-- A buffer made of bytes reads them back. -/
theorem Memory.read_ofBytes (bs : List Byte) (j : Nat) : (Memory.ofBytes bs).read j = bs[j]? := by
  unfold Memory.read
  split
  · rename_i h
    simp only [Memory.ofBytes_size] at h
    simp only [Memory.ofBytes, cellsRead_ofBytes, Nat.zero_le, if_true, Nat.sub_zero]
    simp [List.getD, List.getElem?_eq_getElem h]
  · rename_i h
    simp only [Memory.ofBytes_size, not_lt] at h
    rw [List.getElem?_eq_none h]

@[simp] theorem Memory.bytes_length (m : Memory) (n : Nat) : (m.bytes n).length = n := by simp [Memory.bytes]

end Sys2Proof.Machine
end

