-- ==== Sys2Proof/Laws/Loops.lean ====
section
/-! SUPPORT. What the loops of the operations keep: the decoding, scanning, adding and normalising loops. -/

namespace Sys2Proof.Machine

/-! ### Decoding (41_binary_bcd.md R91) -/

/-- The decoding loop accumulates the raw nibbles and remembers whether one was not a digit. -/
theorem decodeDigits_spec (x : Word) (n acc : Nat) (bad : Bool) :
    decodeDigits x n acc bad = (acc * 10 ^ n + digitSum x n, bad || !((List.range n).all fun i => digitOk (nib x i))) := by
  induction n generalizing acc bad with
  | zero => simp [decodeDigits]
  | succ n ih =>
    rw [decodeDigits, ih, digitSum_succ, List.range_succ, List.all_append]
    refine Prod.ext ?_ ?_
    · simp only [pow_succ]; ring
    · simp only [List.all_cons, List.all_nil, Bool.and_true, Bool.not_and]
      cases bad <;> cases digitOk (nib x n) <;> simp

/-- BCD2B's loop gives the decimal reading and whether the word is invalid. -/
theorem decodeDigits_word (w : Width) (x : Word) : decodeDigits x w.digits 0 false = (val w x, !valid w x) := by
  rw [decodeDigits_spec, val_eq, valid]
  simp

/-! ### Scanning (42_text.md R101) -/

/-- The scan consumes the maximal run of digit bytes and reads its value. -/
theorem scanDigits_spec (m : Memory) (fuel r v : Nat) (h : r + fuel = m.size) :
    ∃ run : List Byte,
      run = ((List.range fuel).map fun k => cellsRead m.cells (r + k)).takeWhile isDigitByte ∧
        scanDigits m fuel r v = some (r + run.length, textValue v run) := by
  induction fuel generalizing r v with
  | zero => exact ⟨[], rfl, rfl⟩
  | succ fuel ih =>
    obtain ⟨run, h1, h2⟩ := ih (r + 1) (v * 10 + digitByteValue (cellsRead m.cells r)) (by omega)
    have htail : (List.range fuel).map (fun k => cellsRead m.cells (r + (k + 1))) =
        (List.range fuel).map fun k => cellsRead m.cells (r + 1 + k) := by
      apply List.map_congr_left
      intro k _
      congr 1
      omega
    rw [List.range_succ_eq_map, List.map_cons, List.map_map, scanDigits, Memory.read_eq_some (by omega)]
    by_cases hd : isDigitByte (cellsRead m.cells r) = true
    · refine ⟨cellsRead m.cells r :: run, ?_, ?_⟩
      · rw [List.takeWhile_cons_of_pos (by simpa using hd), h1, ← htail]
        rfl
      · simp only [hd, if_true, h2, List.length_cons, textValue, List.foldl_cons]
        congr 2
        omega
    · refine ⟨[], ?_, ?_⟩
      · rw [List.takeWhile_cons_of_neg (by simpa using hd)]
      · simp [hd, textValue]

/-- S2BCD's scan of a whole buffer. -/
theorem scanDigits_buffer (m : Memory) :
    scanDigits m m.size 0 0 = some ((digitRun m).length, textValue 0 (digitRun m)) := by
  obtain ⟨run, h1, h2⟩ := scanDigits_spec m m.size 0 0 (by omega)
  have hb : run = digitRun m := by
    rw [h1, digitRun, Memory.bytes]
    simp
  rw [h2, hb, Nat.zero_add]

/-! ### Adding (43_arithmetic.md R121, R122) -/

/-- The invariant of the addition loop: after nibbles below i, the digits written and the carry make the sum. -/
theorem addFrom_spec (a b : Word) (todo i c : Nat) (r : Word) (hi : i + todo ≤ 16) (hc : c ≤ 1)
    (ha : ∀ k, k < i + todo → (nib a k).toNat ≤ 9) (hb : ∀ k, k < i + todo → (nib b k).toNat ≤ 9)
    (hr : digitSum r i + c * 10 ^ i = digitSum a i + digitSum b i) (hv : ∀ k, k < i → (nib r k).toNat ≤ 9)
    (hz : ∀ k, i ≤ k → nib r k = 0) :
    (addFrom a b todo i c r).2 ≤ 1 ∧
      digitSum (addFrom a b todo i c r).1 (i + todo) + (addFrom a b todo i c r).2 * 10 ^ (i + todo) =
        digitSum a (i + todo) + digitSum b (i + todo) ∧
      (∀ k, k < i + todo → (nib (addFrom a b todo i c r).1 k).toNat ≤ 9) ∧
      ∀ k, i + todo ≤ k → nib (addFrom a b todo i c r).1 k = 0 := by
  induction todo generalizing i c r with
  | zero => exact ⟨hc, hr, hv, hz⟩
  | succ todo ih =>
    have hset : ∀ d : Nat, d ≤ 9 → ∀ c' : Nat, c' ≤ 1 → d + c' * 10 = (nib a i).toNat + (nib b i).toNat + c →
        digitSum (setNib r i (digitNibble d)) (i + 1) + c' * 10 ^ (i + 1) = digitSum a (i + 1) + digitSum b (i + 1) ∧
          (∀ k, k < i + 1 → (nib (setNib r i (digitNibble d)) k).toNat ≤ 9) ∧
          ∀ k, i + 1 ≤ k → nib (setNib r i (digitNibble d)) k = 0 := by
      intro d hd c' hc' heq
      have hn : nib (setNib r i (digitNibble d)) i = digitNibble d := by rw [nib_setNib _ _ _ _ (by omega), if_pos rfl]
      refine ⟨?_, ?_, ?_⟩
      · have hlow : digitSum (setNib r i (digitNibble d)) i = digitSum r i := by
          apply digitSum_congr
          intro k hk
          rw [nib_setNib _ _ _ _ (by omega), if_neg (by omega)]
        rw [digitSum_succ, digitSum_succ, digitSum_succ, hlow, hn, digitNibble_toNat d (by omega), pow_succ]
        have : (d + c' * 10) * 10 ^ i = ((nib a i).toNat + (nib b i).toNat + c) * 10 ^ i := by rw [heq]
        linarith
      · intro k hk
        rw [nib_setNib _ _ _ _ (by omega)]
        split
        · rw [digitNibble_toNat d (by omega)]; exact hd
        · exact hv k (by omega)
      · intro k hk
        rw [nib_setNib _ _ _ _ (by omega), if_neg (by omega)]
        exact hz k (by omega)
    have h9a := ha i (by omega)
    have h9b := hb i (by omega)
    have hend : i + (todo + 1) = i + 1 + todo := by omega
    rw [addFrom, hend]
    rw [hend] at ha hb
    split
    · rename_i ht
      obtain ⟨s1, s2, s3⟩ := hset ((nib a i).toNat + (nib b i).toNat + c - 10) (by omega) 1 (by omega) (by omega)
      exact ih (i + 1) 1 _ (by omega) (by omega) ha hb s1 s2 s3
    · rename_i ht
      obtain ⟨s1, s2, s3⟩ := hset ((nib a i).toNat + (nib b i).toNat + c) (by omega) 0 (by omega) (by omega)
      exact ih (i + 1) 0 _ (by omega) (by omega) ha hb s1 s2 s3

/-! ### Multiplying (43_arithmetic.md R123, R125) -/

/-- The number that a list of cells writes in base 10, least significant first; cells may exceed 9. -/
def cellSum : List Nat → Nat
  | [] => 0
  | x :: xs => x + 10 * cellSum xs

@[simp] theorem cellSum_replicate_zero (n : Nat) : cellSum (List.replicate n 0) = 0 := by
  induction n with
  | zero => rfl
  | succ n ih => simp [List.replicate_succ, cellSum, ih]

/-- Adding d to cell k adds d * 10^k to the number. -/
theorem cellSum_modify (xs : List Nat) (k d : Nat) (h : k < xs.length) :
    cellSum (xs.modify k (· + d)) = cellSum xs + d * 10 ^ k := by
  induction xs generalizing k with
  | nil => simp at h
  | cons x xs ih =>
    cases k with
    | zero => simp [cellSum]; omega
    | succ k =>
      simp only [List.length_cons] at h
      simp only [List.modify_succ_cons, cellSum, ih k (by omega), pow_succ]
      ring

@[simp] theorem mulRow_length (a b : Word) (i : Nat) (js acc : List Nat) : (mulRow a b i js acc).length = acc.length := by
  induction js generalizing acc with
  | nil => rfl
  | cons j js ih => simp only [mulRow, List.foldl_cons] at ih ⊢; rw [ih]; simp

/-- One row of the multiply-accumulate loops. -/
theorem mulRow_sum (a b : Word) (i : Nat) (js acc : List Nat) (h : ∀ j ∈ js, i + j < acc.length) :
    cellSum (mulRow a b i js acc) =
      cellSum acc + (js.map fun j => (nib a i).toNat * (nib b j).toNat * 10 ^ (i + j)).sum := by
  induction js generalizing acc with
  | nil => simp [mulRow]
  | cons j js ih =>
    have h1 := ih (acc.modify (i + j) (· + (nib a i).toNat * (nib b j).toNat))
      (fun k hk => by simpa using h k (List.mem_cons_of_mem _ hk))
    simp only [mulRow, List.foldl_cons] at h1 ⊢
    rw [h1, cellSum_modify _ _ _ (h j (List.mem_cons_self ..))]
    simp only [List.map_cons, List.sum_cons]
    omega

theorem sum_map_range (f : Nat → Nat) (n : Nat) : ((List.range n).map f).sum = ∑ i ∈ Finset.range n, f i := by
  induction n with
  | zero => rfl
  | succ n ih => simp [List.range_succ, Finset.sum_range_succ, ih]

/-- The digit accumulator after the first n rows, and its number. -/
theorem mulRows_spec (w : Width) (a b : Word) (n : Nat) (hn : n ≤ w.digits) :
    let acc := (List.range n).foldl (fun acc i => mulRow a b i (List.range w.digits) acc)
      (List.replicate (2 * w.digits) 0)
    acc.length = 2 * w.digits ∧ cellSum acc = digitSum a n * digitSum b w.digits := by
  induction n with
  | zero => simp
  | succ n ih =>
    obtain ⟨h1, h2⟩ := ih (by omega)
    simp only [List.range_succ, List.foldl_append, List.foldl_cons, List.foldl_nil]
    refine ⟨by rw [mulRow_length]; exact h1, ?_⟩
    rw [mulRow_sum, h2, digitSum_succ, sum_map_range, add_mul]
    · congr 1
      rw [digitSum, Finset.mul_sum]
      apply Finset.sum_congr rfl
      intro j _
      rw [pow_add]
      ring
    · intro j hj
      have := List.mem_range.mp hj
      omega

/-- The accumulator has 2D cells that write the product (R125). -/
theorem mulAccumulate_spec (w : Width) (a b : Word) :
    (mulAccumulate w a b).length = 2 * w.digits ∧ cellSum (mulAccumulate w a b) = val w a * val w b := by
  rw [val_eq, val_eq]
  exact mulRows_spec w a b w.digits (le_refl _)

/-- Normalisation keeps the number: its cells become the decimal digits and the carry out is what is left. -/
theorem normalise_spec (c : Nat) (xs : List Nat) :
    (normalise c xs).1.length = xs.length ∧ (normalise c xs).2 = (cellSum xs + c) / 10 ^ xs.length ∧
      ∀ k, k < xs.length → (normalise c xs).1[k]? = some ((cellSum xs + c) / 10 ^ k % 10) := by
  induction xs generalizing c with
  | nil => exact ⟨rfl, by simp [normalise, cellSum], fun k hk => by simp at hk⟩
  | cons x xs ih =>
    obtain ⟨h1, h2, h3⟩ := ih ((x + c) / 10)
    have hdiv : cellSum xs + (x + c) / 10 = (cellSum (x :: xs) + c) / 10 := by simp only [cellSum]; omega
    rw [hdiv] at h2 h3
    refine ⟨by simp [normalise, h1], ?_, ?_⟩
    · simp only [normalise, h2, List.length_cons, pow_succ', Nat.div_div_eq_div_mul]
    · intro k hk
      cases k with
      | zero => simp only [normalise, List.getElem?_cons_zero, cellSum, pow_zero, Nat.div_one]; congr 1; omega
      | succ k =>
        simp only [List.length_cons] at hk
        simp only [normalise, List.getElem?_cons_succ, h3 k (by omega), pow_succ', Nat.div_div_eq_div_mul]

/-- What writing digits into consecutive nibbles does. -/
theorem nib_packDigits (i : Nat) (ds : List Nat) (r : Word) (j : Nat) (h : i + ds.length ≤ 16) :
    nib (packDigits i ds r) j = if i ≤ j ∧ j < i + ds.length then digitNibble (ds.getD (j - i) 0) else nib r j := by
  induction ds generalizing i r with
  | nil => rw [packDigits, if_neg (by simp)]
  | cons d ds ih =>
    simp only [List.length_cons] at h ⊢
    rw [packDigits, ih _ _ (by omega), nib_setNib _ _ _ _ (by omega)]
    by_cases h1 : j = i
    · subst h1; simp
    · by_cases h2 : i + 1 ≤ j ∧ j < i + 1 + ds.length
      · have hj : j - i = (j - (i + 1)) + 1 := by omega
        rw [if_pos h2, if_pos (by omega), hj, List.getD_cons_succ]
      · rw [if_neg h2, if_neg h1, if_neg (by omega)]

/-! ### The word of all ones (43_arithmetic.md R123) -/

theorem allOnes_toNat (w : Width) : (allOnes w).toNat = 2 ^ w.bits - 1 := by cases w <;> decide

end Sys2Proof.Machine
end

