-- ==== Sys2Proof/Laws/State.lean ====
section
/-! SUPPORT. One lemma per field and per update of the state, each by definition. -/

namespace Sys2Proof.Machine

namespace State

variable (s : State) (q : Request) (p : Response) (n : Nat)

@[simp] theorem present_width : (s.present q).width = s.width := rfl
@[simp] theorem present_request : (s.present q).request = some q := rfl
@[simp] theorem present_response : (s.present q).response = none := rfl
@[simp] theorem present_refusalMark : (s.present q).refusalMark = s.refusalMark := rfl
@[simp] theorem present_drawCount : (s.present q).drawCount = s.drawCount := rfl

@[simp] theorem accept_width : (s.accept p n).width = s.width := rfl
@[simp] theorem accept_request : (s.accept p n).request = none := rfl
@[simp] theorem accept_response : (s.accept p n).response = some p := rfl
@[simp] theorem accept_refusalMark : (s.accept p n).refusalMark = s.refusalMark := rfl
@[simp] theorem accept_drawCount : (s.accept p n).drawCount = s.drawCount + n := rfl

@[simp] theorem recordRefusal_width : s.recordRefusal.width = s.width := rfl
@[simp] theorem recordRefusal_request : s.recordRefusal.request = none := rfl
@[simp] theorem recordRefusal_response : s.recordRefusal.response = none := rfl
@[simp] theorem recordRefusal_refusalMark : s.recordRefusal.refusalMark = true := rfl
@[simp] theorem recordRefusal_drawCount : s.recordRefusal.drawCount = s.drawCount := rfl

@[simp] theorem resetAt_width (w : Width) : (resetAt w).width = w := rfl
@[simp] theorem resetAt_request (w : Width) : (resetAt w).request = none := rfl
@[simp] theorem resetAt_response (w : Width) : (resetAt w).response = none := rfl
@[simp] theorem resetAt_refusalMark (w : Width) : (resetAt w).refusalMark = false := rfl
@[simp] theorem resetAt_drawCount (w : Width) : (resetAt w).drawCount = 0 := rfl

@[simp] theorem withFetchWord_width (k w : Nat) : (s.withFetchWord k w).width = s.width := rfl
@[simp] theorem withFetchWord_request (k w : Nat) :
    (s.withFetchWord k w).request = some { s.request.getD (Request.plain 0) with cmd := tableWord k w } := rfl
@[simp] theorem withFetchWord_response (k w : Nat) : (s.withFetchWord k w).response = s.response := rfl
@[simp] theorem withFetchWord_refusalMark (k w : Nat) : (s.withFetchWord k w).refusalMark = s.refusalMark := rfl
@[simp] theorem withFetchWord_drawCount (k w : Nat) : (s.withFetchWord k w).drawCount = s.drawCount := rfl

/-- Presenting replaces whatever request or response stood there. -/
@[simp] theorem present_present (q' : Request) : (s.present q').present q = s.present q := rfl

end State

@[simp] theorem wordResponse_r (q : Request) (r : Word) (e : ErrSignal) : (wordResponse q r e).r = r := rfl
@[simp] theorem wordResponse_err (q : Request) (r : Word) (e : ErrSignal) : (wordResponse q r e).err = e := rfl
@[simp] theorem wordResponse_aux (q : Request) (r : Word) (e : ErrSignal) : (wordResponse q r e).aux = 0 := rfl
@[simp] theorem wordResponse_obuf (q : Request) (r : Word) (e : ErrSignal) : (wordResponse q r e).obuf = q.obuf := rfl

end Sys2Proof.Machine
end

