-- ==== Sys2Proof/Laws/Ops.lean ====
section
/-! SUPPORT. What each shared operation can do, once: the requests it answers, the step, and serving a request. -/

namespace Sys2Proof.Machine

/-! ### Shared operations of the meanings -/

theorem withRequest_some {s : State} {q : Request} (h : s.request = some q)
    (f : Request → Host.Outcome State Fault Refusal) : withRequest s f = f q := by
  simp [withRequest, h]

/-- A codec command with a request present: an answer with NONE where the index is in range, else a refusal (R80). -/
theorem codecOp_of_request {s : State} {q : Request} (h : s.request = some q) (i : Nibble) (f : Word → Word) :
    codecOp i f s =
      if i.toNat < s.width.digits then .next (s.accept (wordResponse q (f (s.opA q)) .none) 0)
      else .refused .indexRange := by
  simp [codecOp, withRequest_some h, indexInRange, answerWord]

/-- An arithmetic command with a request present (43_arithmetic.md R120). -/
theorem bcdOp_of_request {s : State} {q : Request} (h : s.request = some q) (f : Word → Word → Word × ErrSignal) :
    bcdOp s f =
      if valid s.width (s.opA q) = true ∧ valid s.width (s.opB q) = true then
        .next (s.accept (wordResponse q (f (s.opA q) (s.opB q)).1 (f (s.opA q) (s.opB q)).2) 0)
      else .next (s.accept (wordResponse q s.drawWord .invalidDigit) 1) := by
  simp [bcdOp, withRequest_some h, answerWord, answerDrawnWord]

/-- Writing a text that fits OBUF answers a response. -/
theorem answerText_fits (s : State) (q : Request) (bs : List Byte) (err : ErrSignal) (aux drawn : Nat)
    (h : bs = [] ∨ bs.length ≤ q.obuf.size) :
    ∃ m, q.obuf.writeFrom 0 bs = some m ∧
      answerText s q bs err aux drawn = .next (s.accept { r := 0, err := err, aux := aux, obuf := m } drawn) := by
  have hs := Memory.writeFrom_isSome q.obuf 0 bs
  rw [Nat.zero_add, decide_eq_true h, Option.isSome_iff_exists] at hs
  obtain ⟨m, hm⟩ := hs
  exact ⟨m, hm, by simp [answerText, hm]⟩

@[simp] theorem digitText_length (x : Word) (n : Nat) : (digitText x n).length = n := by simp [digitText]

/-- B2BCD with a request present (41_binary_bcd.md R90). -/
theorem execB2bcd_of_request {s : State} {q : Request} (h : s.request = some q) :
    execB2bcd s =
      if s.width.limit ≤ (s.opA q).toNat then .next (s.accept (wordResponse q s.drawWord .overflow) 1)
      else .next (s.accept (wordResponse q (pack s.width (s.opA q).toNat) .none) 0) := by
  simp [execB2bcd, withRequest_some h, needsMoreDigits, answerWord, answerDrawnWord]

/-- BCD2B with a request present (R91). -/
theorem execBcd2b_of_request {s : State} {q : Request} (h : s.request = some q) :
    execBcd2b s =
      .next (s.accept (wordResponse q (BitVec.ofNat 64 (val s.width (s.opA q)))
        (invalidIf (!valid s.width (s.opA q)))) 0) := by
  simp [execBcd2b, withRequest_some h, decodeDigits_word, answerWord]

/-- S2BCD with a request present (42_text.md R101). -/
theorem execS2bcd_of_request {s : State} {q : Request} (h : s.request = some q) :
    execS2bcd s =
      if s.width.limit ≤ textValue 0 (digitRun q.ibuf) then
        .next (s.accept
          { r := s.drawWord, err := .overflow, aux := (digitRun q.ibuf).length, obuf := q.obuf } 1)
      else
        .next (s.accept
          { r := pack s.width (textValue 0 (digitRun q.ibuf)), err := .none, aux := (digitRun q.ibuf).length,
            obuf := q.obuf } 0) := by
  simp [execS2bcd, withRequest_some h, scanDigits_buffer, needsMoreDigits]

/-- The four cases of BCD2S with a request present (42_text.md R104): the short OBUF, the invalid A, the small capacity,
and the text written. -/
theorem execBcd2s_cases {s : State} {q : Request} (h : s.request = some q) :
    (q.obuf.size < s.cap q ∧ execBcd2s s = .refused .hostDuty) ∨
    (s.cap q ≤ q.obuf.size ∧ valid s.width (s.opA q) = false ∧
      ∃ m, q.obuf.writeFrom 0 ((List.range (spoiledCount s.width (s.cap q))).map s.drawByte) = some m ∧
        execBcd2s s = .next (s.accept
          { r := 0, err := .invalidDigit, aux := s.drawNat (spoiledCount s.width (s.cap q)), obuf := m }
          (spoiledCount s.width (s.cap q) + 1))) ∨
    (s.cap q ≤ q.obuf.size ∧ valid s.width (s.opA q) = true ∧ s.cap q < s.width.digits + 1 ∧
      execBcd2s s = .next (s.accept { r := 0, err := .overflow, aux := 0, obuf := q.obuf } 0)) ∨
    (s.cap q ≤ q.obuf.size ∧ valid s.width (s.opA q) = true ∧ s.width.digits + 1 ≤ s.cap q ∧
      ∃ m, q.obuf.writeFrom 0 (digitText (s.opA q) (sig s.width (s.opA q)) ++ [terminator]) = some m ∧
        execBcd2s s = .next (s.accept
          { r := 0, err := .none, aux := sig s.width (s.opA q), obuf := m } 0)) := by
  by_cases h1 : q.obuf.size < s.cap q
  · exact .inl ⟨h1, by simp [execBcd2s, withRequest_some h, h1]⟩
  · right
    cases h2 : valid s.width (s.opA q) with
    | false =>
      left
      obtain ⟨m, hm, ha⟩ := answerText_fits s q ((List.range (spoiledCount s.width (s.cap q))).map s.drawByte)
        .invalidDigit (s.drawNat (spoiledCount s.width (s.cap q))) (spoiledCount s.width (s.cap q) + 1)
        (.inr (by simp [spoiledCount]; omega))
      exact ⟨by omega, rfl, m, hm, by simp [execBcd2s, withRequest_some h, h1, h2, ha]⟩
    | true =>
      right
      by_cases h3 : s.cap q < s.width.digits + 1
      · have hc : capTooSmall s.width (s.cap q) = true := decide_eq_true h3
        exact .inl ⟨by omega, rfl, h3,
          by simp [execBcd2s, withRequest_some h, h1, h2, hc, answerText, Memory.writeFrom]⟩
      · have hc : capTooSmall s.width (s.cap q) = false := decide_eq_false h3
        have hsig := sig_bounds s.width (s.opA q)
        obtain ⟨m, hm, ha⟩ := answerText_fits s q (digitText (s.opA q) (sig s.width (s.opA q)) ++ [terminator])
          .none (sig s.width (s.opA q)) 0 (.inr (by simp; omega))
        exact .inr ⟨by omega, rfl, by omega, m, hm, by simp [execBcd2s, withRequest_some h, h1, h2, hc, ha]⟩

/-- What a meaning does depends on the width, the request and the place in the sequence of free values alone: the same
response and the same number of draws, or the same refusal, in every state with those (10_state.md R20). -/
theorem exec_determined (i : Instr) (w : Width) (q : Request) (d : Nat) :
    (∃ p n, ∀ s : State, s.width = w → s.request = some q → s.drawCount = d → exec i s = .next (s.accept p n)) ∨
      ∃ r, (r = .indexRange ∨ r = .hostDuty) ∧
        ∀ s : State, s.width = w → s.request = some q → s.drawCount = d → exec i s = .refused r := by
  have codec : ∀ (k : Nibble) (f : Word → Word),
      (∃ p n, ∀ s : State, s.width = w → s.request = some q → s.drawCount = d → codecOp k f s = .next (s.accept p n)) ∨
        ∃ r, (r = .indexRange ∨ r = .hostDuty) ∧
          ∀ s : State, s.width = w → s.request = some q → s.drawCount = d → codecOp k f s = .refused r := by
    intro k f
    by_cases hk : k.toNat < w.digits
    · refine .inl ⟨wordResponse q (f (Word.trunc w.bits q.a)) .none, 0, ?_⟩
      rintro s rfl h2 -
      rw [codecOp_of_request h2, if_pos hk]
      rfl
    · refine .inr ⟨.indexRange, .inl rfl, ?_⟩
      rintro s rfl h2 -
      rw [codecOp_of_request h2, if_neg hk]
  have arith : ∀ g : Width → Word → Word → Word × ErrSignal,
      ∃ p n, ∀ s : State, s.width = w → s.request = some q → s.drawCount = d →
        bcdOp s (g s.width) = .next (s.accept p n) := by
    intro g
    by_cases hv : valid w (Word.trunc w.bits q.a) = true ∧ valid w (Word.trunc w.bits q.b) = true
    · refine ⟨wordResponse q (g w (Word.trunc w.bits q.a) (Word.trunc w.bits q.b)).1
        (g w (Word.trunc w.bits q.a) (Word.trunc w.bits q.b)).2, 0, ?_⟩
      rintro s rfl h2 -
      rw [bcdOp_of_request h2]
      exact if_pos hv
    · refine ⟨wordResponse q (Word.trunc w.bits (Config.freeWord d)) .invalidDigit, 1, ?_⟩
      rintro s rfl h2 rfl
      rw [bcdOp_of_request h2]
      exact if_neg hv
  cases i with
  | dget k => exact codec k fun a => (nib a k.toNat).setWidth 64
  | dset k n => exact codec k fun a => setNib a k.toNat n
  | dval k => exact codec k fun a => if digitOk (nib a k.toNat) then 1 else 0
  | b2bcd =>
    left
    by_cases hv : needsMoreDigits w (Word.trunc w.bits q.a).toNat = true
    · refine ⟨wordResponse q (Word.trunc w.bits (Config.freeWord d)) .overflow, 1, ?_⟩
      rintro s rfl h2 rfl
      simp only [exec, execB2bcd, withRequest_some h2]
      exact if_pos hv
    · refine ⟨wordResponse q (pack w (Word.trunc w.bits q.a).toNat) .none, 0, ?_⟩
      rintro s rfl h2 -
      simp only [exec, execB2bcd, withRequest_some h2]
      exact if_neg hv
  | bcd2b =>
    left
    refine ⟨wordResponse q (BitVec.ofNat 64 (decodeDigits (Word.trunc w.bits q.a) w.digits 0 false).1)
      (invalidIf (decodeDigits (Word.trunc w.bits q.a) w.digits 0 false).2), 0, ?_⟩
    rintro s rfl h2 -
    simp only [exec, execBcd2b, withRequest_some h2]
    rfl
  | s2bcd =>
    left
    by_cases hv : needsMoreDigits w (textValue 0 (digitRun q.ibuf)) = true
    · refine ⟨{ r := Word.trunc w.bits (Config.freeWord d), err := .overflow, aux := (digitRun q.ibuf).length,
                obuf := q.obuf }, 1, ?_⟩
      rintro s rfl h2 rfl
      simp only [exec, execS2bcd, withRequest_some h2, scanDigits_buffer]
      exact if_pos hv
    · refine ⟨{ r := pack w (textValue 0 (digitRun q.ibuf)), err := .none, aux := (digitRun q.ibuf).length,
                obuf := q.obuf }, 0, ?_⟩
      rintro s rfl h2 -
      simp only [exec, execS2bcd, withRequest_some h2, scanDigits_buffer]
      exact if_neg hv
  | bcd2s =>
    let c := (Word.trunc w.bits q.b).toNat
    let k := spoiledCount w c
    have text : ∀ (bs : List Byte) (e : ErrSignal) (aux n : Nat), bs = [] ∨ bs.length ≤ q.obuf.size →
        ∃ p, ∀ s : State, answerText s q bs e aux n = .next (s.accept p n) := by
      intro bs e aux n h
      obtain ⟨m, hm, _⟩ := answerText_fits (State.resetAt w) q bs e aux n h
      exact ⟨{ r := 0, err := e, aux := aux, obuf := m }, fun s => by simp [answerText, hm]⟩
    by_cases h1 : q.obuf.size < c
    · refine .inr ⟨.hostDuty, .inr rfl, ?_⟩
      rintro s rfl h2 -
      simp only [exec, execBcd2s, withRequest_some h2]
      exact if_pos h1
    · left
      have hk : k ≤ q.obuf.size := by simp only [k, spoiledCount]; omega
      by_cases h3 : valid w (Word.trunc w.bits q.a) = true
      · have h3' : ¬ (!valid w (Word.trunc w.bits q.a)) = true := by simpa using h3
        by_cases h4 : capTooSmall w c = true
        · obtain ⟨p, hp⟩ := text [] .overflow 0 0 (.inl rfl)
          refine ⟨p, 0, ?_⟩
          rintro s rfl h2 -
          simp only [exec, execBcd2s, withRequest_some h2]
          exact (if_neg h1).trans ((if_neg h3').trans ((if_pos h4).trans (hp s)))
        · have hsig := sig_bounds w (Word.trunc w.bits q.a)
          have h5 : w.digits + 1 ≤ c := by simpa [capTooSmall] using h4
          obtain ⟨p, hp⟩ := text (digitText (Word.trunc w.bits q.a) (sig w (Word.trunc w.bits q.a)) ++ [terminator]) .none
            (sig w (Word.trunc w.bits q.a)) 0 (.inr (by simp; omega))
          refine ⟨p, 0, ?_⟩
          rintro s rfl h2 -
          simp only [exec, execBcd2s, withRequest_some h2]
          exact (if_neg h1).trans ((if_neg h3').trans ((if_neg h4).trans (hp s)))
      · have h3' : (!valid w (Word.trunc w.bits q.a)) = true := by simpa using h3
        obtain ⟨p, hp⟩ := text ((List.range k).map fun j => Config.freeByte (d + j)) .invalidDigit
          (Config.freeCount (d + k)) (k + 1) (.inr (by simpa using hk))
        refine ⟨p, k + 1, ?_⟩
        rintro s rfl h2 rfl
        simp only [exec, execBcd2s, withRequest_some h2]
        exact (if_neg h1).trans ((if_pos h3').trans (hp s))
  | badd => exact .inl (arith addResult)
  | bmul => exact .inl (arith mulResult)

/-- Every meaning, applied with a request present, answers that request or refuses it. -/
theorem exec_answers_or_refuses {s : State} {q : Request} (h : s.request = some q) (i : Instr) :
    (∃ p n, exec i s = .next (s.accept p n)) ∨ exec i s = .refused .indexRange ∨ exec i s = .refused .hostDuty := by
  rcases exec_determined i s.width q s.drawCount with ⟨p, n, hp⟩ | ⟨r, rfl | rfl, hr⟩
  · exact .inl ⟨p, n, hp s rfl h rfl⟩
  · exact .inr (.inl (hr s rfl h rfl))
  · exact .inr (.inr (hr s rfl h rfl))

/-- No meaning moves the count of draws back (log 3). -/
theorem exec_drawCount_le {s t : State} {i : Instr} (h : exec i s = .next t) : s.drawCount ≤ t.drawCount := by
  cases hr : s.request with
  | none =>
    cases i <;>
      simp [exec, execDget, execDset, execDval, codecOp, execB2bcd, execBcd2b, execS2bcd, execBcd2s, execBadd,
        execBmul, bcdOp, withRequest, hr] at h
  | some q =>
    rcases exec_answers_or_refuses hr i with ⟨p, n, h'⟩ | h' | h' <;> rw [h'] at h <;> cases h
    exact Nat.le_add_right _ _

/-! ### The step -/

theorem step_of_no_request {s : State} (h : s.request = none) : step s = .next s := by simp [step, h]

theorem step_of_decoded {s : State} {q : Request} {i : Instr} (h : s.request = some q)
    (hd : decode s.width q.cmd = .ok i) : step s = exec i s := by simp [step, h, hd]

theorem step_of_undecoded {s : State} {q : Request} {r : DecodeRefusal} (h : s.request = some q)
    (hd : decode s.width q.cmd = .error r) : step s = .refused (.ofDecode r) := by simp [step, h, hd]

/-- A step with a request present answers it or refuses it. -/
theorem step_answers_or_refuses {s : State} {q : Request} (h : s.request = some q) :
    (∃ p n, step s = .next (s.accept p n)) ∨ ∃ r, step s = .refused r := by
  cases hd : decode s.width q.cmd with
  | error r => exact .inr ⟨_, step_of_undecoded h hd⟩
  | ok i =>
    rw [step_of_decoded h hd]
    rcases exec_answers_or_refuses h i with h1 | h1 | h1
    · exact .inl h1
    · exact .inr ⟨_, h1⟩
    · exact .inr ⟨_, h1⟩

/-! ### Serving a request -/

/-- Serving a request always goes on: with its response, or with the refusal recorded. -/
theorem serve_cases (s : State) (q : Request) :
    (∃ p n, step (s.present q) = .next ((s.present q).accept p n) ∧ serve s q = .next ((s.present q).accept p n)) ∨
      ∃ r, step (s.present q) = .refused r ∧ serve s q = .next (s.present q).recordRefusal := by
  rcases step_answers_or_refuses (s := s.present q) rfl with ⟨p, n, h⟩ | ⟨r, h⟩
  · exact .inl ⟨p, n, h, by simp [serve, h]⟩
  · exact .inr ⟨r, h, by simp [serve, h]⟩

/-- A drawn word is a word of W bits (00_scope.md R12). -/
theorem drawWord_lt (s : State) : s.drawWord.toNat < 2 ^ s.width.bits := trunc_lt _ _

/-- The response to a request depends on the width and the place in the sequence of free values alone (10_state.md R20). -/
theorem responseTo_determined {s t : State} (hw : s.width = t.width) (hd : s.drawCount = t.drawCount) (q : Request) :
    responseTo s q = responseTo t q := by
  simp only [responseTo, serve]
  cases h : decode s.width q.cmd with
  | error r =>
    rw [step_of_undecoded (s := s.present q) rfl h, step_of_undecoded (s := t.present q) rfl (by rw [← h, hw]; rfl)]
    rfl
  | ok i =>
    rw [step_of_decoded (s := s.present q) rfl h, step_of_decoded (s := t.present q) rfl (by rw [← h, hw]; rfl)]
    rcases exec_determined i s.width q s.drawCount with ⟨p, n, hp⟩ | ⟨r, _, hr⟩
    · rw [hp (s.present q) rfl rfl rfl, hp (t.present q) hw.symm rfl hd.symm]; rfl
    · rw [hr (s.present q) rfl rfl rfl, hr (t.present q) hw.symm rfl hd.symm]; rfl

end Sys2Proof.Machine
end

