-- ==== Sys2Proof/Laws/PerInstr.lean ====
section
/-! SUPPORT. A statement about every instruction, one lemma per constructor: the field checks read an instruction's own
word back. -/

namespace Sys2Proof.Laws.FieldsReadBack

/-- The field checks of 30_encoding.md R65 read the word of an instruction as that instruction. -/
def Statement (i : Instr) : Prop := decodeFields (encode i) = .ok i

theorem dget (i : Nibble) : Statement (.dget i) := by revert i; unfold Statement; decide

theorem dset (i n : Nibble) : Statement (.dset i n) := by
  obtain ⟨h0, h1, h2, h3⟩ := fields_commandWord 2 i n
  unfold Statement decodeFields
  simp only [encode]
  change opField (commandWord 0x0002 i n) = 2 at h0
  rw [h0]
  exact (formatC_eq_ok _ _ _).mpr ⟨h3, congrArg₂ Instr.dset h1 h2⟩

theorem dval (i : Nibble) : Statement (.dval i) := by revert i; unfold Statement; decide

theorem b2bcd : Statement .b2bcd := by unfold Statement; decide

theorem bcd2b : Statement .bcd2b := by unfold Statement; decide

theorem s2bcd : Statement .s2bcd := by unfold Statement; decide

theorem bcd2s : Statement .bcd2s := by unfold Statement; decide

theorem badd : Statement .badd := by unfold Statement; decide

theorem bmul : Statement .bmul := by unfold Statement; decide

end Sys2Proof.Laws.FieldsReadBack
end

