-- ==== Sys2Proof/Laws/Results.lean ====
section
/-! SUPPORT. The results of the two arithmetic commands on valid operands, in the operands' values. -/

namespace Sys2Proof.Machine

/-- The sum of valid words: the packing of the sum of their values, and OVERFLOW where it needs more digits (R121). -/
theorem addResult_spec (w : Width) (a b : Word) (ha : valid w a = true) (hb : valid w b = true) :
   (addResult w a b).1 = pack w (val w a + val w b) ∧ (addResult w a b).2 = overflowIf (decide (w.limit ≤ val w a + val w b)) := by
  rw [valid_iff] at ha hb
  have hD := w.digits_le
  have hl : w.limit = 10 ^ w.digits := rfl
  obtain ⟨h1, h2, h3, h4⟩ := addFrom_spec a b w.digits 0 0 0 (by omega) (by omega) (by simpa using ha) (by simpa using hb) (by simp) (by simp) (by simp)
  simp only [Nat.zero_add] at h1 h2 h3 h4
  have hval : digitSum (addFrom a b w.digits 0 0 0).1 w.digits < 10 ^ w.digits := digitSum_lt h3
  have hfit : (addFrom a b w.digits 0 0 0).1.toNat < 2 ^ w.bits := by rw [w.two_pow_bits, lt_pow_iff_nib_zero]; exact h4
  rw [val_eq, val_eq, ← h2]
  constructor
  · apply val_injective hfit (pack_lt _ _) ((valid_iff _ _).mpr h3) (pack_valid _ _)
    rw [val_pack, val_eq, hl, Nat.add_mul_mod_self_right, Nat.mod_eq_of_lt hval]
  · simp only [addResult]
    congr 1
    rw [hl]
    rcases Nat.lt_or_ge (addFrom a b w.digits 0 0 0).2 1 with hc | hc
    · have : (addFrom a b w.digits 0 0 0).2 = 0 := by omega
      rw [this]; simp; exact hval
    · have : (addFrom a b w.digits 0 0 0).2 = 1 := by omega
      rw [this]; simp

/-- The product of two valid words' values fits the 2D cells. -/
theorem val_mul_val_lt {w : Width} {a b : Word} (ha : valid w a = true) (hb : valid w b = true) :
    val w a * val w b < 10 ^ (2 * w.digits) := by
  rw [two_mul, pow_add]
  exact Nat.mul_lt_mul'' (val_lt_limit ha) (val_lt_limit hb)

/-- The product: the packing of the values' product where it fits D digits, else the all-ones word (R123, R125). -/
theorem mulResult_spec (w : Width) (a b : Word) :
   (val w a * val w b < w.limit → mulResult w a b = (pack w (val w a * val w b), .none)) ∧
   (w.limit ≤ val w a * val w b → val w a * val w b < 10 ^ (2 * w.digits) → mulResult w a b = (allOnes w, .overflow)) := by
  obtain ⟨hl, hs⟩ := mulAccumulate_spec w a b
  obtain ⟨n1, n2, n3⟩ := normalise_spec 0 (mulAccumulate w a b)
  unfold mulResult
  rw [hs, hl] at n2 n3
  rw [hl] at n1
  have hD := w.digits_le
  simp only [Nat.add_zero] at n2 n3
  generalize val w a * val w b = P at *
  generalize (normalise 0 (mulAccumulate w a b)).1 = ds at *
  have hlim : w.limit = 10 ^ w.digits := rfl
  have hany : (ds.drop w.digits).any (· ≠ 0) = true ↔ ∃ k, w.digits ≤ k ∧ k < 2 * w.digits ∧ P / 10 ^ k % 10 ≠ 0 := by
    rw [List.any_eq_true]
    constructor
    · rintro ⟨x, hx, h0⟩
      obtain ⟨j, hj⟩ := List.mem_iff_getElem?.mp hx
      rw [List.getElem?_drop] at hj
      have hlt : w.digits + j < 2 * w.digits := by
        rw [← n1]; exact (List.getElem?_eq_some_iff.mp hj).1
      rw [n3 _ hlt] at hj
      refine ⟨w.digits + j, by omega, hlt, ?_⟩
      cases hj
      simpa using h0
    · rintro ⟨k, h1, h2, h3⟩
      refine ⟨P / 10 ^ k % 10, List.mem_iff_getElem?.mpr ⟨k - w.digits, ?_⟩, by simpa using h3⟩
      rw [List.getElem?_drop, show w.digits + (k - w.digits) = k by omega, n3 k h2]
  constructor
  · intro hP
    have : ¬ ((ds.drop w.digits).any (· ≠ 0) = true) := by
      rw [hany]
      rintro ⟨k, h1, _, h3⟩
      apply h3
      rw [Nat.div_eq_of_lt (lt_of_lt_of_le (hlim ▸ hP) (Nat.pow_le_pow_right (by norm_num) h1))]
    rw [if_neg this]
    congr 1
    have hlen : (ds.take w.digits).length = w.digits := by simp [n1]; omega
    apply word_ext
    intro i _
    rw [nib_packDigits _ _ _ _ (by omega), nib_pack, hlen]
    simp only [Nat.zero_le, true_and, Nat.zero_add, Nat.sub_zero]
    split
    · rename_i hi
      congr 1
      rw [List.getD_eq_getElem?_getD, List.getElem?_take, if_pos hi, n3 i (by omega)]
      rfl
    · simp
  · intro h1 h2
    have : ((ds.drop w.digits).any (· ≠ 0) = true) := by
      rw [hany]
      by_contra hc
      have : ∀ k, k ≤ w.digits → P < 10 ^ (2 * w.digits - k) := by
        intro k
        induction k with
        | zero => intro _; exact h2
        | succ k ih =>
          intro hk
          have hlt := ih (by omega)
          have hz : P / 10 ^ (2 * w.digits - (k + 1)) % 10 = 0 := by
            by_contra hne
            exact hc ⟨2 * w.digits - (k + 1), by omega, by omega, hne⟩
          have he : 2 * w.digits - k = (2 * w.digits - (k + 1)) + 1 := by omega
          rw [he, pow_succ] at hlt
          have hp : 0 < 10 ^ (2 * w.digits - (k + 1)) := by positivity
          have hd : P / 10 ^ (2 * w.digits - (k + 1)) < 10 := by
            rw [Nat.div_lt_iff_lt_mul hp]; linarith
          have : P / 10 ^ (2 * w.digits - (k + 1)) = 0 := (fun z h1 h2 => by omega : ∀ z : Nat, z % 10 = 0 → z < 10 → z = 0) _ hz hd
          exact (Nat.div_eq_zero_iff_lt hp).mp this
      have := this w.digits (le_refl _)
      rw [show 2 * w.digits - w.digits = w.digits by omega] at this
      rw [hlim] at h1
      omega
    rw [if_pos this]

end Sys2Proof.Machine
end

