-- ==== Sys2Proof/Laws/Text.lean ====
section
/-! SUPPORT. What the digit run of a buffer and the written text of a word are. -/

namespace Sys2Proof.Machine

/-! ### The digit run (42_text.md R101) -/

/-- What stands right after a leading run does not belong to it. -/
theorem takeWhile_stop {α : Type} (p : α → Bool) (l : List α) (c : α) (h : l[(l.takeWhile p).length]? = some c) : p c = false := by
  induction l with
  | nil => simp at h
  | cons x l ih =>
    by_cases hx : p x = true
    · rw [List.takeWhile_cons_of_pos hx, List.length_cons, List.getElem?_cons_succ] at h
      exact ih h
    · rw [List.takeWhile_cons_of_neg hx] at h
      simp at h; subst h; simpa using hx

/-- The leading digit run of a buffer: its bytes are the buffer's first ones, all digits, and it is maximal (R101). -/
theorem digitRun_spec (m : Memory) : (digitRun m).length ≤ m.size ∧ (∀ k, k < (digitRun m).length → (digitRun m)[k]? = m.read k) ∧
   (∀ c ∈ digitRun m, isDigitByte c = true) ∧ (∀ c, m.read (digitRun m).length = some c → isDigitByte c = false) := by
  have hpre : digitRun m <+: m.bytes m.size := List.takeWhile_prefix _
  have hget : ∀ k, k < m.size → (m.bytes m.size)[k]? = m.read k := by
    intro k hk
    rw [Memory.read_eq_some hk]; simp [Memory.bytes, hk]
  have hle : (digitRun m).length ≤ m.size := by simpa using hpre.length_le
  refine ⟨hle, ?_, ?_, ?_⟩
  · intro k hk
    rw [← hget k (by omega)]
    obtain ⟨t, ht⟩ := hpre
    rw [← ht, List.getElem?_append_left hk]
  · intro c hc; exact List.mem_takeWhile_imp hc
  · intro c hc
    have hs : (digitRun m).length < m.size := by
      by_contra hn; rw [Memory.read_eq_none (by omega)] at hc; cases hc
    rw [← hget _ hs] at hc
    exact takeWhile_stop _ _ _ hc

/-! ### The written text (R103, R104) -/

theorem digitByte_toNat (n : Nibble) : (digitByte n).toNat = 0x30 + n.toNat := by
  have := n.isLt
  simp [digitByte, asciiZero]; omega

/-- The byte at each offset of a written text (R104). -/
theorem digitText_terminated_get (x : Word) (n k : Nat) (hk : k < n) : (digitText x n ++ [terminator])[k]? = some (digitByte (nib x (n - 1 - k))) := by
  rw [List.getElem?_append_left (by simpa using hk)]
  simp [digitText, hk]

/-- The text of n + 1 digits begins with digit n. -/
theorem digitText_succ (x : Word) (n : Nat) : digitText x (n+1) = digitByte (nib x n) :: digitText x n := by
  unfold digitText
  rw [List.range_succ_eq_map, List.map_cons, List.map_map]
  congr 1
  apply List.map_congr_left
  intro k hk
  simp only [Function.comp]
  congr 2; omega

/-- The value of a text is the number its bytes' digit values write (R101, R102). -/
theorem textValue_eq_digitsValue (bs : List Byte) : textValue 0 bs = digitsValue (bs.map digitByteValue) := by
  simp [textValue, digitsValue, List.foldl_map]

/-- The number a written text reads back as (42_text.md R105). -/
theorem textValue_digitText (x : Word) (n v : Nat) : textValue v (digitText x n) = v * 10 ^ n + digitSum x n := by
  induction n generalizing v with
  | zero => simp [textValue, digitText]
  | succ n ih =>
    rw [digitText_succ]
    have : textValue v (digitByte (nib x n) :: digitText x n) = textValue (v * 10 + digitByteValue (digitByte (nib x n))) (digitText x n) := rfl
    rw [this, ih, digitSum_succ, digitByteValue, digitByte_toNat, asciiZero, pow_succ]
    simp; ring

/-- The digits above the significant ones add nothing (R103). -/
theorem digitSum_sig (w : Width) (x : Word) : digitSum x (sig w x) = val w x := by
  rw [val_eq]
  have hs := sig_bounds w x
  have : ∀ n, sig w x + n ≤ w.digits → digitSum x (sig w x + n) = digitSum x (sig w x) := by
    intro n
    induction n with
    | zero => intro _; rfl
    | succ n ih =>
      intro hn
      rw [← Nat.add_assoc, digitSum_succ, ih (by omega), nib_above_sig w x _ (by omega) (by omega)]; simp
  have h := this (w.digits - sig w x) (by omega)
  rw [← h]; congr 1; omega

/-- The first significant digit is not zero, unless every nibble is (R103). -/
theorem sig_head (w : Width) (x : Word) : nib x (sig w x - 1) ≠ 0 ∨ (sig w x = 1 ∧ ∀ i, i < w.digits → nib x i = 0) := by
  unfold sig
  rcases sigFrom_spec x w.digits with ⟨h1, h2⟩ | ⟨k, hk, h1, h2, h3⟩
  · right; exact ⟨h1, h2⟩
  · left; rw [h1]; exact h2

end Sys2Proof.Machine
end

