-- ==== Sys2Proof/Machine/AsmText.lean ====
section
/-! DEFINITION. The written form of assembly lines and host statements (30_encoding.md R69, R71): a lexer and a parser.
What the notation leaves open (spaces, the letters of a name) is the model's choice (DESIGN CHOICE, log 19, safe). -/

namespace Sys2Proof.Machine

/-- The tokens of one line of text. -/
inductive Token where
  | name (n : Name)
  | number (n : Nat)
  | text (s : List Byte)
  | hash
  | comma
  | colon
  | dot
  | openBracket
  | closeBracket
  | assign
  | equal
  | unequal
  deriving DecidableEq, Repr

/-- The value of a hexadecimal digit character, in either case. -/
def hexDigit (c : Char) : Option Nat :=
  if '0' ≤ c ∧ c ≤ '9' then some (c.toNat - 48)
  else if 'a' ≤ c ∧ c ≤ 'f' then some (c.toNat - 87)
  else if 'A' ≤ c ∧ c ≤ 'F' then some (c.toNat - 55)
  else none

/-- A character that may begin a name. -/
def nameStart (c : Char) : Bool := c.isAlpha || c == '_'

/-- A character that may stand in a name. -/
def namePart (c : Char) : Bool := nameStart c || c.isDigit

/-- The number that digit characters of a base write. -/
def readNumber (base : Nat) (cs : List Char) : Nat := cs.foldl (fun n c => n * base + (hexDigit c).getD 0) 0

/-- The bytes of a string literal, each character one ASCII byte, and what follows its closing quote. -/
def readString : List Char → Option (List Byte × List Char)
  | [] => none
  | c :: cs =>
    if c == '"' then some ([], cs)
    else if c.toNat < 128 then (readString cs).map fun r => (BitVec.ofNat 8 c.toNat :: r.1, r.2)
    else none

/-- The token of a single character. -/
def symbolToken (c : Char) : Option Token :=
  if c == '#' then some .hash
  else if c == ',' then some .comma
  else if c == ':' then some .colon
  else if c == '.' then some .dot
  else if c == '[' then some .openBracket
  else if c == ']' then some .closeBracket
  else none

/-- The first token of a line and what follows it; `none` where the text has no token. -/
def lexToken : List Char → Option (Token × List Char)
  | '=' :: '=' :: cs => some (.equal, cs)
  | '!' :: '=' :: cs => some (.unequal, cs)
  | '=' :: cs => some (.assign, cs)
  | '"' :: cs => (readString cs).map fun r => (.text r.1, r.2)
  | '0' :: 'x' :: cs =>
    let ds := cs.takeWhile fun c => (hexDigit c).isSome
    if ds.isEmpty then none else some (.number (readNumber 16 ds), cs.dropWhile fun c => (hexDigit c).isSome)
  | c :: cs =>
    if c.isDigit then
      some (.number (readNumber 10 ((c :: cs).takeWhile Char.isDigit)), (c :: cs).dropWhile Char.isDigit)
    else if nameStart c then some (.name ((c :: cs).takeWhile namePart), (c :: cs).dropWhile namePart)
    else (symbolToken c).map fun t => (t, cs)
  | [] => none

/-- The tokens of a line: spaces separate, `;` starts a comment (R69). The fuel is the line's length. -/
def lexLine : Nat → List Char → Option (List Token)
  | _, [] => some []
  | 0, _ :: _ => none
  | fuel + 1, c :: cs =>
    if c == ' ' || c == '\t' then lexLine fuel cs
    else if c == ';' then some []
    else
      match lexToken (c :: cs) with
      | none => none
      | some (t, rest) => (lexLine fuel rest).map (t :: ·)

/-- A word operand: a literal, `t` or `t.R` (R69, R71). -/
def parseOperand : List Token → Option (AsmOperand × List Token)
  | .number n :: rest => some (.literal n, rest)
  | .name v :: .dot :: .name ['R'] :: rest => some (.var v, rest)
  | .name v :: rest => some (.var v, rest)
  | _ => none

/-- A word operand that ends its line. -/
def lastOperand (mk : AsmOperand → AsmLine) (ts : List Token) : Option AsmLine :=
  match parseOperand ts with
  | some (a, []) => some (mk a)
  | _ => none

/-- Two word operands. -/
def twoOperands (mk : AsmOperand → AsmOperand → AsmLine) (ts : List Token) : Option AsmLine :=
  match parseOperand ts with
  | some (a, .comma :: rest) => lastOperand (mk a) rest
  | _ => none

/-- A literal of 0..15 (R69). -/
def nibbleLiteral (n : Nat) : Option Nibble := if n < 16 then some (BitVec.ofNat 4 n) else none

/-- A word operand and a digit index. -/
def operandIndex (mk : AsmOperand → Nibble → AsmLine) (ts : List Token) : Option AsmLine :=
  match parseOperand ts with
  | some (a, [.comma, .hash, .number i]) => (nibbleLiteral i).map (mk a)
  | _ => none

/-- A word operand, a digit index and a nibble value. -/
def operandIndexNibble (ts : List Token) : Option AsmLine :=
  match parseOperand ts with
  | some (a, [.comma, .hash, .number i, .comma, .hash, .number n]) =>
    match nibbleLiteral i, nibbleLiteral n with
    | some i, some n => some (.dset a i n)
    | _, _ => none
  | _ => none

/-- The rest of a list of byte literals, after its first byte. -/
def moreBytes : List Token → Option (List Byte)
  | [.closeBracket] => some []
  | .comma :: .number n :: rest => if n < 256 then (moreBytes rest).map (BitVec.ofNat 8 n :: ·) else none
  | _ => none

/-- The input text of S2BCD: a string literal or a list of byte literals (R69). -/
def parseText : List Token → Option (List Byte)
  | [.text s] => some s
  | [.openBracket, .closeBracket] => some []
  | .openBracket :: .number n :: rest => if n < 256 then (moreBytes rest).map (BitVec.ofNat 8 n :: ·) else none
  | _ => none

/-- A word operand and an array. -/
def operandArray (ts : List Token) : Option AsmLine :=
  match parseOperand ts with
  | some (a, [.comma, .name buf]) => some (.bcd2s a buf)
  | _ => none

/-- The operands of each mnemonic (R69, R70), the mnemonic in capitals. -/
def parseOperands (mnemonic : Name) (ts : List Token) : Option AsmLine :=
  if mnemonic = ['D', 'G', 'E', 'T'] then operandIndex .dget ts
  else if mnemonic = ['D', 'S', 'E', 'T'] then operandIndexNibble ts
  else if mnemonic = ['D', 'V', 'A', 'L'] then operandIndex .dval ts
  else if mnemonic = ['B', '2', 'B', 'C', 'D'] then lastOperand .b2bcd ts
  else if mnemonic = ['B', 'C', 'D', '2', 'B'] then lastOperand .bcd2b ts
  else if mnemonic = ['S', '2', 'B', 'C', 'D'] then (parseText ts).map .s2bcd
  else if mnemonic = ['B', 'C', 'D', '2', 'S'] then operandArray ts
  else if mnemonic = ['B', 'A', 'D', 'D'] then twoOperands .badd ts
  else if mnemonic = ['B', 'M', 'U', 'L'] then twoOperands .bmul ts
  else if mnemonic = ['B', 'V', 'A', 'L', 'I', 'D'] then lastOperand .bvalid ts
  else if mnemonic = ['B', 'I', 'N', 'C'] then lastOperand .binc ts
  else none

/-- An assembly line: a mnemonic, in any case, followed by its operands (R69). -/
def parseRequest : List Token → Option AsmLine
  | .name m :: ts => parseOperands (m.map Char.toUpper) ts
  | _ => none

/-- The names of the error signal (10_state.md R26). -/
def parseErr (n : Name) : Option ErrSignal :=
  if n = ['N', 'O', 'N', 'E'] then some .none
  else if n = ['I', 'N', 'V', 'A', 'L', 'I', 'D', '_', 'D', 'I', 'G', 'I', 'T'] then some .invalidDigit
  else if n = ['O', 'V', 'E', 'R', 'F', 'L', 'O', 'W'] then some .overflow
  else none

/-- A comparison of words and its jump, after `if` and the left operand. -/
def parseCompare (t : AsmOperand) (mk : AsmOperand → AsmOperand → Name → Stmt) (ts : List Token) : Option Stmt :=
  match parseOperand ts with
  | some (v, [.name ['g', 'o', 't', 'o'], .name target]) => some (mk t v target)
  | _ => none

/-- The condition and jump of an `if` statement (R71). -/
def parseIf : List Token → Option Stmt
  | [.name t, .dot, .name ['E', 'R', 'R'], .equal, .name e, .name ['g', 'o', 't', 'o'], .name target] =>
    (parseErr e).map fun e => .ifErr t e target
  | ts =>
    match parseOperand ts with
    | some (t, .equal :: rest) => parseCompare t .ifEq rest
    | some (t, .unequal :: rest) => parseCompare t .ifNe rest
    | _ => none

/-- A statement of the host script (R71). -/
def parseStmt : List Token → Option Stmt
  | [.name ['h', 'a', 'l', 't']] => some .halt
  | [.name ['g', 'o', 't', 'o'], .name target] => some (.goto target)
  | .name ['i', 'f'] :: ts => parseIf ts
  | [.name buf, .assign, .name ['b', 'y', 't', 'e', 's'], .openBracket, .number k, .closeBracket] => some (.bytes buf k)
  | .name t :: .assign :: ts => (parseRequest ts).map (.issue t)
  | _ => none

/-- A statement with its label, where it has one. -/
def parseScriptLine : List Token → Option ScriptLine
  | .name l :: .colon :: ts => (parseStmt ts).map fun st => { label := some l, stmt := st }
  | ts => (parseStmt ts).map fun st => { label := none, stmt := st }

/-- One line of assembly text. -/
def assembleLine (text : List Char) : Option AsmLine := (lexLine text.length text).bind parseRequest

/-- One line of a host script's text. -/
def readScriptLine (text : List Char) : Option ScriptLine := (lexLine text.length text).bind parseScriptLine

end Sys2Proof.Machine
end

