-- ==== Sys2Proof/Tests/Slice0.lean ====
section
/-! SUPPORT. Tests of the model. Expected results are those of spec/95_test_vectors.md or of the rule named; the last part
shows, for each obligation with hypotheses, a state and operands that meet them. -/

namespace Sys2Proof.Tests

open Sys2Proof.Machine

/-! ### Small states and what a test reads of an outcome -/

/-- The core of width W with one request present. -/
def given (w : Width) (c : CmdWord) (a b : Word) (ibuf obuf : List Byte) : State :=
  (State.resetAt w).present { cmd := c, a := a, b := b, ibuf := .ofBytes ibuf, obuf := .ofBytes obuf }

/-- The response of a next state. -/
def responseOf : Host.Outcome State Fault Refusal → Option Response
  | .next t => t.response
  | .fault _ => none
  | .refused _ => none

/-- R, ERR and AUX. -/
def answer (o : Host.Outcome State Fault Refusal) : Option (Word × ErrSignal × Nat) :=
  (responseOf o).map fun p => (p.r, p.err, p.aux)

/-- ERR alone, where R is drawn. -/
def errOf (o : Host.Outcome State Fault Refusal) : Option ErrSignal := (responseOf o).map (·.err)

/-- The bytes of OBUF'. -/
def obufOf (o : Host.Outcome State Fault Refusal) : Option (List Byte) :=
  (responseOf o).map fun p => p.obuf.bytes p.obuf.size

/-- Why a step refuses. -/
def refusalOf : Host.Outcome State Fault Refusal → Option Refusal
  | .next _ => none
  | .fault _ => none
  | .refused r => some r

/-! ### WellFormed: the index check, its only check, refuses an index of D or more (30_encoding.md R66) -/

theorem test_index_at_digit_count_is_ill_formed :
    wellFormed .w16 (.dget 4) = false ∧ wellFormed .w16 (.dset 4 0) = false ∧ wellFormed .w16 (.dval 4) = false := by
  decide

theorem test_last_index_is_well_formed :
    wellFormed .w16 (.dget 3) = true ∧ wellFormed .w16 (.dset 3 15) = true ∧ wellFormed .w16 (.dval 3) = true := by
  decide

/-! ### Decode: words written bit by bit from the patterns of R64, the vectors of section 2.1 -/

theorem test_decode_dget : decode .w16 0b0000_0000_0011_0001 = .ok (.dget 3) := by decide
theorem test_decode_dset : decode .w16 0b0000_1001_0011_0010 = .ok (.dset 3 9) := by decide
theorem test_decode_dval : decode .w16 0b0000_0000_0010_0011 = .ok (.dval 2) := by decide
theorem test_decode_b2bcd : decode .w16 0b0000_0000_0000_0100 = .ok .b2bcd := by decide
theorem test_decode_bcd2b : decode .w16 0b0000_0000_0000_0101 = .ok .bcd2b := by decide
theorem test_decode_s2bcd : decode .w16 0b0000_0000_0000_0110 = .ok .s2bcd := by decide
theorem test_decode_bcd2s : decode .w16 0b0000_0000_0000_0111 = .ok .bcd2s := by decide
theorem test_decode_badd : decode .w16 0b0000_0000_0000_1000 = .ok .badd := by decide
theorem test_decode_bmul : decode .w16 0b0000_0000_0000_1001 = .ok .bmul := by decide

theorem test_decode_reserved_opcodes :
    decode .w16 0x0000 = .error .reservedOpcode ∧ decode .w16 0x000A = .error .reservedOpcode ∧
      decode .w16 0x000F = .error .reservedOpcode ∧ decode .w16 0x100A = .error .reservedOpcode := by
  decide

theorem test_decode_reserved_fields :
    decode .w16 0x1004 = .error .reservedField ∧ decode .w16 0x0104 = .error .reservedField ∧
      decode .w16 0x0014 = .error .reservedField ∧ decode .w16 0x0103 = .error .reservedField ∧
      decode .w16 0xF932 = .error .reservedField := by
  decide

theorem test_decode_index_range :
    decode .w16 0x0F42 = .error .indexRange ∧ decode .w8 0x0021 = .error .indexRange ∧
      decode .w32 0x0081 = .error .indexRange ∧ decode .w64 0x00F1 = .ok (.dget 15) := by
  decide

theorem test_table_word_reads_as_decode :
    decodeTableWord 16 0x0932 = some (.dset 3 9) ∧ decodeTableWord 16 0x0000 = none := by
  decide

/-! ### One step of each instruction (sections 1 and 2.2 to 2.5) -/

theorem test_dget_returns_the_raw_nibble :
    answer (step (given .w16 0x0031 0xF000 0 [] [])) = some (0x000F, .none, 0) := by decide

theorem test_dget_top_digit_at_64_bits :
    answer (step (given .w64 0x00F1 0x9000000000000000 0 [] [])) = some (0x9, .none, 0) := by decide

theorem test_dset_writes_the_top_digit :
    answer (step (given .w16 0x0932 0x0255 0 [] [])) = some (0x9255, .none, 0) := by decide

theorem test_dset_writes_an_invalid_nibble_raw :
    answer (step (given .w16 0x0C02 0x0255 0 [] [])) = some (0x025C, .none, 0) := by decide

theorem test_dval_nine_is_a_digit :
    answer (step (given .w16 0x0023 0x0900 0 [] [])) = some (1, .none, 0) := by decide

theorem test_dval_ten_is_none :
    answer (step (given .w8 0x0013 0xA9 0 [] [])) = some (0, .none, 0) := by decide

theorem test_b2bcd_all_nines :
    answer (step (given .w16 0x0004 0x270F 0 [] [])) = some (0x9999, .none, 0) := by decide

theorem test_b2bcd_overflows_at_the_limit :
    errOf (step (given .w64 0x0004 0x002386F26FC10000 0 [] [])) = some .overflow := by decide

theorem test_bcd2b_decodes :
    answer (step (given .w16 0x0005 0x0255 0 [] [])) = some (0x00FF, .none, 0) := by decide

theorem test_bcd2b_accumulates_invalid_nibbles :
    answer (step (given .w64 0x0005 0xFFFFFFFFFFFFFFFF 0 [] [])) = some (0x003B363EBA41AAA9, .invalidDigit, 0) := by
  decide

theorem test_s2bcd_stops_at_the_first_non_digit :
    answer (step (given .w16 0x0006 0 0 [0x30, 0x34, 0x32, 0x78] [])) = some (0x0042, .none, 3) := by decide

theorem test_s2bcd_leading_zeros_do_not_overflow :
    answer (step (given .w8 0x0006 0 0 [0x30, 0x30, 0x30, 0x30, 0x39, 0x39] [])) = some (0x99, .none, 6) := by decide

theorem test_bcd2s_keeps_the_bytes_after_the_terminator :
    answer (step (given .w16 0x0007 0x0042 5 [] [0xEE, 0xEE, 0xEE, 0xEE, 0xEE])) = some (0, .none, 2) ∧
      obufOf (step (given .w16 0x0007 0x0042 5 [] [0xEE, 0xEE, 0xEE, 0xEE, 0xEE])) =
        some [0x34, 0x32, 0x00, 0xEE, 0xEE] := by
  decide

theorem test_bcd2s_invalid_digit_wins_over_the_small_capacity :
    errOf (step (given .w16 0x0007 0x00A0 3 [] [0xEE, 0xEE, 0xEE])) = some .invalidDigit ∧
      refusalOf (step (given .w16 0x0007 0x0042 5 [] [0xEE, 0xEE, 0xEE])) = some .hostDuty := by
  decide

theorem test_badd_carry_ripples :
    answer (step (given .w16 0x0008 0x0999 0x0001 [] [])) = some (0x1000, .none, 0) := by decide

theorem test_badd_overflow_wraps :
    answer (step (given .w16 0x0008 0x9999 0x9999 [] [])) = some (0x9998, .overflow, 0) := by decide

theorem test_bmul_squares :
    answer (step (given .w16 0x0009 0x0099 0x0099 [] [])) = some (0x9801, .none, 0) := by decide

theorem test_bmul_overflow_by_carry :
    answer (step (given .w16 0x0009 0x9999 0x0002 [] [])) = some (0xFFFF, .overflow, 0) := by decide

/-! ### Steps, reset, refusals -/

/-- With no request the core idles, and it has no response to read (70_reset_and_hazards.md R160). -/
theorem test_reset_idles : step State.reset = .next State.reset ∧ State.reset.readR = .error .noResponse := ⟨rfl, rfl⟩

/-- The word placed for the next step is the one it runs: DGET #15 of a zero word. -/
theorem test_fetch_word_runs : answer (step (State.reset.withFetchWord 16 0x00F1)) = some (0, .none, 0) := by decide

/-- A refused request leaves no response and sets the mark, and the next request is answered (60_exceptions.md R147). -/
theorem test_refusal_is_sticky_and_local :
    (match serveAll [Request.plain 0x000A, Request.plain 0x0004] (State.resetAt .w8) with
      | .next t => (t.refusalMark, t.response.map (·.err))
      | .fault _ => (false, none)
      | .refused _ => (false, none)) = (true, some .none) := by
  decide

/-! ### Assembly text and the host script (30_encoding.md R69 to R71) -/

theorem test_assemble_dset :
    assembleLine "dset 0x0255, #3, #9 ; the top digit".toList = some (.dset (.literal 0x0255) 3 9) := by decide

theorem test_assemble_s2bcd :
    assembleLine "S2BCD [0x30, 0x34]".toList = some (.s2bcd [0x30, 0x34]) ∧
      assembleLine "S2BCD \"042x\"".toList = some (.s2bcd [0x30, 0x34, 0x32, 0x78]) := by
  decide

theorem test_read_script_line :
    readScriptLine "loop: x = BADD x, 0x01".toList =
      some { label := some ['l', 'o', 'o', 'p'], stmt := .issue ['x'] (.badd (.var ['x']) (.literal 1)) } ∧
      readScriptLine "if x.ERR == OVERFLOW goto done".toList =
        some { label := none, stmt := .ifErr ['x'] .overflow ['d', 'o', 'n', 'e'] } := by
  decide

/-- The script of the witnesses: one request, then the end. -/
def oneRequestScript : HostState :=
  .start .w8 [{ label := none, stmt := .issue ['x'] (.badd (.literal 0x99) (.literal 1)) },
    { label := none, stmt := .halt }] []

/-- 99 + 1 at W = 8 binds x to the wrapped word with OVERFLOW (program P2). -/
theorem test_script_binds_the_response :
    (match hostStep oneRequestScript with
      | .next h => (lookupName ['x'] h.env.vars).map fun p => (p.r, p.err)
      | .fault _ => none
      | .refused _ => none) = some (0, .overflow) := by
  decide

/-! ### Witnesses: for each obligation with hypotheses, a state and operands that meet them, clause by clause

Each name is test_witness_ and the obligation's name. A hypothesis that an outcome is a next state is met by naming that
state through the step itself. -/

/-- A request of BADD at W = 8, whose operands are valid. -/
def baddRequest : Request := { Request.plain 0x0008 with a := 0x45, b := 0x54 }

/-- A request of BCD2S with an OBUF of n bytes. -/
def bcd2sRequest (a b : Word) (n : Nat) : Request := { Request.plain 0x0007 with a := a, b := b, obuf := .blank n }

/-- The core of width 8 with a request present. -/
def at8 (q : Request) : State := (State.resetAt .w8).present q

theorem test_witness_EncodedInstructionsDecode :
    wellFormed .w8 (.dget 1) = true ∧ wellFormed .w64 (.dset 15 15) = true ∧ wellFormed .w8 .bmul = true := by decide

theorem test_witness_DecodedWordsAreEncodings :
    decode .w8 0x0011 = .ok (.dget 1) ∧ decode .w64 0x0FF2 = .ok (.dset 15 15) := by decide

/-- An opcode on each side of 1 to 9, and each reserved field, at the opcodes where the clauses begin and end. -/
theorem test_witness_ReservedWordsAreRefused :
    ((0x0000 : CmdWord).extractLsb' 0 4).toNat = 0 ∧ 10 ≤ ((0x000A : CmdWord).extractLsb' 0 4).toNat ∧
      (1 ≤ ((0x1001 : CmdWord).extractLsb' 0 4).toNat ∧ ((0x1001 : CmdWord).extractLsb' 12 4) ≠ 0) ∧
      (((0x0103 : CmdWord).extractLsb' 0 4).toNat = 3 ∧ ((0x0103 : CmdWord).extractLsb' 8 4) ≠ 0) ∧
      (4 ≤ ((0x0014 : CmdWord).extractLsb' 0 4).toNat ∧ ((0x0014 : CmdWord).extractLsb' 4 4) ≠ 0) ∧
      (((0x0109 : CmdWord).extractLsb' 0 4).toNat ≤ 9 ∧ ((0x0109 : CmdWord).extractLsb' 8 4) ≠ 0) := by
  decide

/-- The index at D and at D - 1. -/
theorem test_witness_IndexAtOrAboveDigitCountIsRefused :
    Width.digits .w8 ≤ (2 : Nibble).toNat ∧ (1 : Nibble).toNat < Width.digits .w8 ∧
      Width.digits .w32 ≤ (8 : Nibble).toNat ∧ (15 : Nibble).toNat < Width.digits .w64 := by
  decide

/-- The largest literal and the longest array that W = 8 allows. -/
theorem test_witness_AssemblyLinesHaveTheirWords :
    (AsmOperand.literal 255).word .w8 { vars := [], bufs := [] } = .ok 255 ∧
      lookupName ['b'] [((['b'] : Name), Memory.blank 255)] = some (Memory.blank 255) ∧
      (Memory.blank 255).size < 2 ^ Width.bits .w8 := by
  decide

/-- BVALID of any word; BINC of 98 and of 99, the values on each side of the overflow. -/
theorem test_witness_PseudoInstructionsExpand :
    (∃ q, (AsmLine.bvalid (.literal 0x9A)).request .w8 { vars := [], bufs := [] } = .ok q) ∧
      (∃ q, (AsmLine.binc (.literal 0x98)).request .w8 { vars := [], bufs := [] } = .ok q ∧
        valid .w8 ((State.resetAt .w8).opA q) = true) ∧
      (∃ q, (AsmLine.binc (.literal 0x99)).request .w8 { vars := [], bufs := [] } = .ok q ∧
        valid .w8 ((State.resetAt .w8).opA q) = true) :=
  ⟨⟨_, rfl⟩, ⟨_, rfl, by decide⟩, ⟨_, rfl, by decide⟩⟩

theorem test_witness_StepRunsTheDecodedInstruction :
    State.reset.request = none ∧ (at8 baddRequest).request = some baddRequest ∧
      decode .w8 baddRequest.cmd = .ok .badd ∧ decode .w8 0x0021 = .error .indexRange := by
  decide

/-- A reset is possible in an idle state, and leaves one. -/
theorem test_witness_ResetLeavesNoResponse :
    State.reset.request = none ∧ ∃ t, State.reset.coreReset = some t := ⟨rfl, _, rfl⟩

theorem test_witness_StepKeepsWordsAndBuffersWellFormed :
    (at8 baddRequest).Inv ∧ ∃ t, step (at8 baddRequest) = .next t := by
  refine ⟨⟨?_, ?_⟩, _, rfl⟩
  · rintro q ⟨⟩
    exact ⟨by unfold wordFits; decide, by unfold wordFits; decide, by decide, by decide⟩
  · rintro p ⟨⟩

theorem test_witness_WidthNeverChanges :
    (∃ t, step (at8 baddRequest) = .next t) ∧ (∃ t, serve (State.resetAt .w8) baddRequest = .next t) ∧
      (∃ t, serveAll [baddRequest, Request.plain 0] (State.resetAt .w8) = .next t) ∧
      ∃ t, (State.resetAt .w8).coreReset = some t :=
  ⟨⟨_, rfl⟩, ⟨_, rfl⟩, ⟨_, rfl⟩, _, rfl⟩

theorem test_witness_NoStepFaults : (at8 baddRequest).request ≠ none := by decide

/-- A request of each refusal, at the boundary of HOST_DUTY, one that is not refused, and a run with the mark set. -/
theorem test_witness_RequestsAreServedOrRefused :
    step (at8 (Request.plain 0x000A)) = .refused .reservedOpcode ∧
      step (at8 (Request.plain 0x1001)) = .refused .reservedField ∧
      step (at8 (Request.plain 0x0021)) = .refused .indexRange ∧
      step (at8 (bcd2sRequest 0x42 3 2)) = .refused .hostDuty ∧
      (∀ r, step (at8 (bcd2sRequest 0x42 3 3)) ≠ .refused r) ∧
      ∃ t, serveAll [Request.plain 0x0004] (State.resetAt .w8).recordRefusal = .next t :=
  ⟨rfl, rfl, rfl, rfl, fun r h => absurd (congrArg refusalOf h) (by change none ≠ some r; simp), _, rfl⟩

theorem test_witness_EarlierRequestsDoNotMatter :
    ∃ t, serveAll [baddRequest, bcd2sRequest 0xAA 3 3] (State.resetAt .w8) = .next t := ⟨_, rfl⟩

/-- Two requests that differ in the fields BADD does not use, an answer, and a refusal of BCD2S. -/
theorem test_witness_UnusedFieldsHaveNoEffect :
    usesSame .badd baddRequest { baddRequest with ibuf := .ofBytes [0x31], obuf := .blank 4 } ∧
      (∃ p, Answers (at8 baddRequest) .badd p) ∧
      usesSame .bcd2s (bcd2sRequest 0x42 3 2) { bcd2sRequest 0x42 3 2 with ibuf := .ofBytes [0x31] } ∧
      exec .bcd2s (at8 (bcd2sRequest 0x42 3 2)) = .refused .hostDuty ∧
      usesSame .bcd2s (bcd2sRequest 0x9A 2 2) { bcd2sRequest 0x9A 2 2 with ibuf := .ofBytes [0x31] } ∧
      ∃ p, Answers (at8 (bcd2sRequest 0x9A 2 2)) .bcd2s p :=
  ⟨⟨rfl, rfl⟩, ⟨_, _, rfl, rfl⟩, ⟨rfl, rfl, rfl⟩, rfl, ⟨rfl, rfl, rfl⟩, _, _, rfl, rfl⟩

/-- Each of the eight instructions answers a next state. -/
theorem test_witness_WordOperationsFrame :
    (∃ t, exec (.dget 1) (at8 baddRequest) = .next t) ∧ (∃ t, exec (.dset 1 15) (at8 baddRequest) = .next t) ∧
      (∃ t, exec (.dval 1) (at8 baddRequest) = .next t) ∧ (∃ t, exec .b2bcd (at8 baddRequest) = .next t) ∧
      (∃ t, exec .bcd2b (at8 baddRequest) = .next t) ∧ (∃ t, exec .s2bcd (at8 baddRequest) = .next t) ∧
      (∃ t, exec .badd (at8 baddRequest) = .next t) ∧ ∃ t, exec .bmul (at8 baddRequest) = .next t :=
  ⟨⟨_, rfl⟩, ⟨_, rfl⟩, ⟨_, rfl⟩, ⟨_, rfl⟩, ⟨_, rfl⟩, ⟨_, rfl⟩, ⟨_, rfl⟩, _, rfl⟩

/-- BCD2S with each of the three error signals. -/
theorem test_witness_TextOutputFrame :
    (bcd2sRequest 0x42 3 3).obuf.wf = true ∧
      (∃ p, Answers (at8 (bcd2sRequest 0x42 3 3)) .bcd2s p ∧ p.err = .none) ∧
      (∃ p, Answers (at8 (bcd2sRequest 0x42 2 2)) .bcd2s p ∧ p.err = .overflow) ∧
      ∃ p, Answers (at8 (bcd2sRequest 0x4A 2 2)) .bcd2s p ∧ p.err = .invalidDigit :=
  ⟨rfl, ⟨_, ⟨_, rfl, rfl⟩, rfl⟩, ⟨_, ⟨_, rfl, rfl⟩, rfl⟩, _, ⟨_, rfl, rfl⟩, rfl⟩

/-- The last offset of a buffer and the first beyond it. -/
theorem test_witness_BufferWriteThenRead :
    (Memory.blank 3).wf = true ∧ ((Memory.blank 3).write 2 0x37).isSome = true ∧ (Memory.blank 3).read 3 = none := by
  decide

/-- The bytes 0x37, 0x00 built in one piece and written one by one. -/
theorem test_witness_EqualBuffersAreEqualData :
    (Memory.ofBytes [0x37, 0x00]).wf = true ∧ ((Memory.blank 2).write 0 0x37).map (·.wf) = some true ∧
      ((Memory.blank 2).write 0 0x37).map (·.size) = some (Memory.ofBytes [0x37, 0x00]).size ∧
      ∀ k, (((Memory.blank 2).write 0 0x37).bind (·.read k)) = (Memory.ofBytes [0x37, 0x00]).read k :=
  ⟨by decide, by decide, by decide, fun _ => rfl⟩

/-- The all-nines word is valid; one nibble of 10 makes it invalid. -/
theorem test_witness_DecimalReadingIsThePlaceValueSum : valid .w8 0x99 = true ∧ valid .w8 0x9A = false := by decide

/-- The largest value of W = 8 and the largest valid word. -/
theorem test_witness_PackingIsABijection :
    99 < Width.limit .w8 ∧ 2 < 10 ^ 1 ∧ wordFits .w8 0x99 ∧ valid .w8 0x99 = true := by
  unfold wordFits; decide

theorem test_witness_ReadingsFitTheWord : valid .w64 0x9999999999999999 = true ∧ valid .w64 0 = true := by decide

/-- A word of zeros, and one whose highest nonzero nibble is its highest. -/
theorem test_witness_SignificantDigitsEndAtTheTopNonzeroNibble :
    (∀ i, i < Width.digits .w8 → nib 0 i = 0) ∧
      (1 < Width.digits .w8 ∧ nib 0xA0 1 ≠ 0 ∧ ∀ i, 1 < i → i < Width.digits .w8 → nib 0xA0 i = 0) := by
  refine ⟨by decide, by decide, by decide, fun i h1 h2 => ?_⟩
  have : i < 2 := h2
  omega

/-- The codec's indices at D - 1 and at D, and words of its two refusals. -/
theorem test_witness_DgetReturnsTheRawNibble :
    (at8 baddRequest).request = some baddRequest ∧ (1 : Nibble).toNat < Width.digits .w8 ∧
      Width.digits .w8 ≤ (2 : Nibble).toNat ∧ (0x0101 : CmdWord).extractLsb' 0 4 = 1 ∧
      (0x0101 : CmdWord).extractLsb' 8 4 ≠ 0 ∧ (0x1001 : CmdWord).extractLsb' 12 4 ≠ 0 ∧
      (0x0021 : CmdWord) &&& 0xFF0F = 0x0001 ∧ Width.digits .w8 ≤ ((0x0021 : CmdWord).extractLsb' 4 4).toNat := by
  decide

theorem test_witness_DsetReplacesOneNibble :
    (at8 baddRequest).request = some baddRequest ∧ (1 : Nibble).toNat < Width.digits .w8 ∧
      Width.digits .w8 ≤ (2 : Nibble).toNat ∧ (0x1002 : CmdWord).extractLsb' 0 4 = 2 ∧
      (0x1002 : CmdWord).extractLsb' 12 4 ≠ 0 ∧
      (0x0F22 : CmdWord) &&& 0xF00F = 0x0002 ∧ Width.digits .w8 ≤ ((0x0F22 : CmdWord).extractLsb' 4 4).toNat := by
  decide

theorem test_witness_DvalTellsWhetherTheNibbleIsADigit :
    (at8 baddRequest).request = some baddRequest ∧ (1 : Nibble).toNat < Width.digits .w8 ∧
      Width.digits .w8 ≤ (2 : Nibble).toNat ∧ (0x0103 : CmdWord).extractLsb' 0 4 = 3 ∧
      (0x0103 : CmdWord).extractLsb' 8 4 ≠ 0 ∧ (0x1003 : CmdWord).extractLsb' 12 4 ≠ 0 ∧
      (0x0023 : CmdWord) &&& 0xFF0F = 0x0003 ∧ Width.digits .w8 ≤ ((0x0023 : CmdWord).extractLsb' 4 4).toNat := by
  decide

/-- Two states with other requests but the same A, one of which answers. -/
theorem test_witness_CodecNeverSignalsAnError :
    (at8 baddRequest).opA baddRequest = (at8 (Request.plain 0)).opA { Request.plain 0 with a := 0x45 } ∧
      (∃ p, Answers (at8 baddRequest) (.dget 1) p) ∧ (∃ p, Answers (at8 baddRequest) (.dset 1 10) p) ∧
      ∃ p, Answers (at8 baddRequest) (.dval 1) p :=
  ⟨rfl, ⟨_, _, rfl, rfl⟩, ⟨_, _, rfl, rfl⟩, _, _, rfl, rfl⟩

theorem test_witness_CodecLaws :
    wordFits .w8 0xFF ∧ (1 : Nibble).toNat < Width.digits .w8 ∧ (0 : Nibble).toNat < Width.digits .w8 ∧
      (1 : Nibble) ≠ 0 := by
  unfold wordFits; decide

/-- A at 10^D and at 10^D - 1. -/
theorem test_witness_BinaryToBcdPacksTheDigits :
    (at8 { Request.plain 4 with a := 100 }).request = some { Request.plain 4 with a := 100 } ∧
      10 ^ Width.digits .w8 ≤ ((State.resetAt .w8).opA { Request.plain 4 with a := 100 }).toNat ∧
      ((State.resetAt .w8).opA { Request.plain 4 with a := 99 }).toNat < 10 ^ Width.digits .w8 := by
  decide

theorem test_witness_BcdToBinaryAccumulatesTheNibbles :
    (at8 { Request.plain 5 with a := 0x9A }).request = some { Request.plain 5 with a := 0x9A } := by decide

theorem test_witness_ConversionsRoundTrip :
    99 < Width.limit .w8 ∧ wordFits .w8 0x99 ∧ valid .w8 0x99 = true := by unfold wordFits; decide

/-- Runs of value 100 and 99 at W = 8: the run is the whole buffer, so the hypotheses on it are those of its value. -/
theorem test_witness_TextToBcdReadsTheMaximalRun :
    10 ^ Width.digits .w8 ≤ textValue 0 (digitRun (Memory.ofBytes [0x31, 0x30, 0x30])) ∧
      textValue 0 (digitRun (Memory.ofBytes [0x39, 0x39, 0x2F])) < 10 ^ Width.digits .w8 ∧
      (Memory.ofBytes [0x39, 0x39, 0x2F]).read (digitRun (Memory.ofBytes [0x39, 0x39, 0x2F])).length = some 0x2F := by
  decide

/-- A digit list that loses nothing, for all its leading zeros, and one that does. -/
theorem test_witness_ShiftAndAddAgreesWithTheValue :
    (∀ d ∈ [0, 0, 9, 9], d ≤ 9) ∧ (shiftAdd .w8 [0, 0, 9, 9] 0 false).2 = false ∧
      (∀ d ∈ [1, 0, 0], d ≤ 9) ∧ (shiftAdd .w8 [1, 0, 0] 0 false).2 = true := by
  decide

/-- Requests whose runs are those two lists, each answered. -/
theorem test_witness_ShiftAndAddAgreesWithTheValue_run :
    [0, 0, 9, 9] = (digitRun (Memory.ofBytes [0x30, 0x30, 0x39, 0x39, 0x00])).map digitByteValue ∧
      (∃ p, Answers (given .w8 0x0006 0 0 [0x30, 0x30, 0x39, 0x39, 0x00] []) .s2bcd p) ∧
      [1, 0, 0] = (digitRun (Memory.ofBytes [0x31, 0x30, 0x30])).map digitByteValue ∧
      ∃ p, Answers (given .w8 0x0006 0 0 [0x31, 0x30, 0x30] []) .s2bcd p :=
  ⟨by decide, ⟨_, _, rfl, rfl⟩, by decide, _, _, rfl, rfl⟩

/-- The capacity on each side of the buffer's size, of D + 1, and A valid and invalid; offsets on each side of the ends. -/
theorem test_witness_BcdToTextWritesTheSignificantDigits :
    (bcd2sRequest 0x42 3 3).obuf.wf = true ∧
      (bcd2sRequest 0x42 3 2).obuf.size < ((State.resetAt .w8).opB (bcd2sRequest 0x42 3 2)).toNat ∧
      (((State.resetAt .w8).opB (bcd2sRequest 0x4A 0 0)).toNat ≤ (bcd2sRequest 0x4A 0 0).obuf.size ∧
        valid .w8 ((State.resetAt .w8).opA (bcd2sRequest 0x4A 0 0)) = false) ∧
      (valid .w8 ((State.resetAt .w8).opA (bcd2sRequest 0x42 2 2)) = true ∧
        ((State.resetAt .w8).opB (bcd2sRequest 0x42 2 2)).toNat < Width.digits .w8 + 1) ∧
      (valid .w8 ((State.resetAt .w8).opA (bcd2sRequest 0x42 3 3)) = true ∧
        Width.digits .w8 + 1 ≤ ((State.resetAt .w8).opB (bcd2sRequest 0x42 3 3)).toNat ∧
        ((State.resetAt .w8).opB (bcd2sRequest 0x42 3 3)).toNat ≤ (bcd2sRequest 0x42 3 3).obuf.size) := by
  decide

/-- Formatting a word that is not zero, and the zero word. -/
theorem test_witness_FormattedTextIsMinimal :
    (∃ p, Answers (at8 (bcd2sRequest 0x07 3 3)) .bcd2s p ∧ p.err = .none) ∧
      val .w8 ((State.resetAt .w8).opA (bcd2sRequest 0x07 3 3)) ≠ 0 ∧
      (∃ p, Answers (at8 (bcd2sRequest 0 3 3)) .bcd2s p ∧ p.err = .none) ∧
      val .w8 ((State.resetAt .w8).opA (bcd2sRequest 0 3 3)) = 0 :=
  ⟨⟨_, ⟨_, rfl, rfl⟩, rfl⟩, by decide, ⟨_, ⟨_, rfl, rfl⟩, rfl⟩, by decide⟩

/-- The largest value in the smallest sufficient buffer, and an IBUF of its text with the terminator. -/
theorem test_witness_TextRoundTrips :
    99 < Width.limit .w8 ∧ (State.resetAt .w8).opA (bcd2sRequest 0x99 3 3) = pack .w8 99 ∧
      Width.digits .w8 + 1 ≤ (State.resetAt .w8).cap (bcd2sRequest 0x99 3 3) ∧
      (State.resetAt .w8).cap (bcd2sRequest 0x99 3 3) ≤ (bcd2sRequest 0x99 3 3).obuf.size ∧
      (bcd2sRequest 0x99 3 3).obuf.wf = true ∧
      obufOf (exec .bcd2s (at8 (bcd2sRequest 0x99 3 3))) = some [0x39, 0x39, 0x00] ∧
      (given .w8 0x0006 0 0 [0x39, 0x39, 0x00] []).request =
        some { Request.plain 6 with ibuf := .ofBytes ([0x39, 0x39] ++ [0x00]) } := by
  decide

/-- An invalid nibble of each operand. -/
theorem test_witness_ArithmeticValidatesItsOperands :
    (1 < Width.digits .w8 ∧ 9 < ((State.resetAt .w8).opA { baddRequest with a := 0xA0 }).toNat / 16 ^ 1 % 16) ∧
      (0 < Width.digits .w8 ∧ 9 < ((State.resetAt .w8).opB { baddRequest with b := 0x0A }).toNat / 16 ^ 0 % 16) := by
  decide

/-- Invalid on either side, and valid operands. -/
theorem test_witness_AdditionIsDecimalAddition :
    valid .w8 ((State.resetAt .w8).opA { baddRequest with a := 0xA0 }) = false ∧
      valid .w8 ((State.resetAt .w8).opB { baddRequest with b := 0x0A }) = false ∧
      valid .w8 ((State.resetAt .w8).opA baddRequest) = true ∧ valid .w8 ((State.resetAt .w8).opB baddRequest) = true := by
  decide

theorem test_witness_AdditionCarriesDigitByDigit :
    valid .w8 0x99 = true ∧ valid .w8 0x01 = true ∧ 2 ≤ Width.digits .w8 := by decide

/-- Valid operands whose product is 99, the largest that fits, and 100; an invalid operand. -/
theorem test_witness_MultiplicationIsDecimalMultiplication :
    val .w8 0x09 * val .w8 0x11 < 10 ^ Width.digits .w8 ∧ 10 ^ Width.digits .w8 ≤ val .w8 0x10 * val .w8 0x10 ∧
      valid .w8 0x09 = true ∧ valid .w8 0x11 = true ∧ valid .w8 0x10 = true ∧ valid .w8 0x0A = false := by
  decide

theorem test_witness_NormalisedAccumulatorHoldsTheProductDigits :
    valid .w8 0x99 = true ∧ 3 < 2 * Width.digits .w8 ∧ (mulResult .w8 0x09 0x11).2 = .none := by decide

/-- The last cell and the one with the most products. -/
theorem test_witness_AccumulatorCellsStaySmall :
    valid .w8 0x99 = true ∧ (mulAccumulate .w8 0x99 0x99)[3]? = some 0 ∧
      (mulAccumulate .w8 0x99 0x99)[1]? = some 162 := by
  decide

theorem test_witness_ArithmeticLaws :
    wordFits .w8 0x99 ∧ wordFits .w8 0x9A ∧ valid .w8 0x99 = true ∧ valid .w8 0x9A = false := by
  unfold wordFits; decide

theorem test_witness_OverflowWordsAreToldApart :
    (∃ p, Answers (at8 { baddRequest with a := 0x99, b := 0x99 }) .bmul p ∧ p.err = .overflow) ∧
      ∃ p, Answers (at8 { baddRequest with a := 0x99, b := 0x99 }) .badd p ∧ p.err = .overflow :=
  ⟨⟨_, ⟨_, rfl, rfl⟩, rfl⟩, _, ⟨_, rfl, rfl⟩, rfl⟩

/-- An answer of every instruction, at words with an invalid digit. -/
theorem test_witness_ErrorConditions :
    (∃ p, Answers (at8 baddRequest) (.dget 0) p) ∧ (∃ p, Answers (at8 baddRequest) (.dset 0 10) p) ∧
      (∃ p, Answers (at8 baddRequest) (.dval 0) p) ∧ (∃ p, Answers (at8 { baddRequest with a := 0x9A }) .b2bcd p) ∧
      (∃ p, Answers (at8 { baddRequest with a := 0x9A }) .bcd2b p) ∧ (∃ p, Answers (at8 baddRequest) .s2bcd p) ∧
      (∃ p, Answers (at8 (bcd2sRequest 0x9A 2 2)) .bcd2s p) ∧
      (∃ p, Answers (at8 { baddRequest with a := 0x9A }) .badd p) ∧
      ∃ p, Answers (at8 { baddRequest with a := 0x9A }) .bmul p :=
  ⟨⟨_, _, rfl, rfl⟩, ⟨_, _, rfl, rfl⟩, ⟨_, _, rfl, rfl⟩, ⟨_, _, rfl, rfl⟩, ⟨_, _, rfl, rfl⟩, ⟨_, _, rfl, rfl⟩,
    ⟨_, _, rfl, rfl⟩, ⟨_, _, rfl, rfl⟩, _, _, rfl, rfl⟩

/-- An answer with each error that each operation can signal. -/
theorem test_witness_ResultsDeliveredWithAnError :
    (∃ p, Answers (at8 { baddRequest with a := 100 }) .b2bcd p ∧ p.err = .overflow) ∧
      (∃ p, Answers (at8 { baddRequest with a := 0x9A }) .bcd2b p ∧ p.err = .invalidDigit) ∧
      (∃ p, Answers (at8 { baddRequest with ibuf := .ofBytes [0x31, 0x30, 0x30] }) .s2bcd p ∧ p.err = .overflow) ∧
      (∃ p, Answers (at8 (bcd2sRequest 0x9A 2 2)) .bcd2s p ∧ p.err = .invalidDigit) ∧
      (∃ p, Answers (at8 (bcd2sRequest 0x99 2 2)) .bcd2s p ∧ p.err = .overflow) ∧
      (∃ p, Answers (at8 { baddRequest with a := 0x9A }) .badd p ∧ p.err = .invalidDigit) ∧
      (∃ p, Answers (at8 { baddRequest with a := 0x99 }) .badd p ∧ p.err = .overflow) ∧
      (∃ p, Answers (at8 { baddRequest with a := 0x9A }) .bmul p ∧ p.err = .invalidDigit) ∧
      ∃ p, Answers (at8 { baddRequest with a := 0x99 }) .bmul p ∧ p.err = .overflow :=
  ⟨⟨_, ⟨_, rfl, rfl⟩, rfl⟩, ⟨_, ⟨_, rfl, rfl⟩, rfl⟩, ⟨_, ⟨_, rfl, rfl⟩, rfl⟩, ⟨_, ⟨_, rfl, rfl⟩, rfl⟩,
    ⟨_, ⟨_, rfl, rfl⟩, rfl⟩, ⟨_, ⟨_, rfl, rfl⟩, rfl⟩, ⟨_, ⟨_, rfl, rfl⟩, rfl⟩, ⟨_, ⟨_, rfl, rfl⟩, rfl⟩,
    _, ⟨_, rfl, rfl⟩, rfl⟩

/-- A drawn value of each kind, and an answer without one. -/
theorem test_witness_UnspecifiedResultsAreFreshFreeValues :
    (∃ t, exec .b2bcd (at8 { baddRequest with a := 100 }) = .next t ∧ t.response.map (·.err) = some .overflow) ∧
      (∃ t, exec .s2bcd (at8 { baddRequest with ibuf := .ofBytes [0x31, 0x30, 0x30] }) = .next t ∧
        t.response.map (·.err) = some .overflow) ∧
      (∃ t, exec .badd (at8 { baddRequest with b := 0x0A }) = .next t ∧
        t.response.map (·.err) = some .invalidDigit) ∧
      (∃ t, exec .bmul (at8 { baddRequest with b := 0x0A }) = .next t ∧
        t.response.map (·.err) = some .invalidDigit) ∧
      (∃ t, exec .bcd2s (at8 (bcd2sRequest 0x9A 2 2)) = .next t ∧ t.response.map (·.err) = some .invalidDigit) ∧
      (∃ t, exec .badd (at8 baddRequest) = .next t ∧ t.response.map (·.err) = some .none) ∧
      (∃ t, exec .bcd2s (at8 (bcd2sRequest 0x42 2 2)) = .next t ∧ t.response.map (·.err) = some .overflow) ∧
      (∃ t, serveAll [baddRequest, { baddRequest with b := 0x0A }] (State.resetAt .w8) = .next t) ∧
      ∃ t, (State.resetAt .w8).coreReset = some t :=
  ⟨⟨_, rfl, rfl⟩, ⟨_, rfl, rfl⟩, ⟨_, rfl, rfl⟩, ⟨_, rfl, rfl⟩, ⟨_, rfl, rfl⟩, ⟨_, rfl, rfl⟩, ⟨_, rfl, rfl⟩,
    ⟨_, rfl⟩, _, rfl⟩

/-- A script at a statement that is accepted, and one at a statement that is refused (index 2 at W = 8). -/
theorem test_witness_ScriptStatementIssuesOneRequest :
    (oneRequestScript.halted = false ∧
      ∃ q, (AsmLine.badd (.literal 0x99) (.literal 1)).request .w8 oneRequestScript.env = .ok q ∧
        ∃ c, step (oneRequestScript.core.present q) = .next c) ∧
      ∃ q, (AsmLine.dget (.literal 0) 2).request .w8 oneRequestScript.env = .ok q ∧
        step (oneRequestScript.core.present q) = .refused .indexRange :=
  ⟨⟨rfl, _, rfl, _, rfl⟩, _, rfl, rfl⟩

end Sys2Proof.Tests
end

section
/-! PROOFS. The scope (00_scope.md): the width of the core (R6, R23) and the place in the sequence of free values (R12). -/

namespace Sys2Proof.Machine

/-! ### What a run and a reset keep -/

/-- What every served request keeps holds after a run of requests. -/
theorem serveAll_keeps {P : State → Prop} (hserve : ∀ {s t : State} {q : Request}, P s → serve s q = .next t → P t)
    {qs : List Request} {s t : State} (hs : P s) (h : serveAll qs s = .next t) : P t := by
  induction qs generalizing s with
  | nil => cases h; exact hs
  | cons q qs ih =>
    rw [serveAll] at h
    cases hq : serve s q with
    | next u => simp only [hq] at h; exact ih (hserve hs hq) h
    | fault f => simp [hq] at h
    | refused r => simp [hq] at h

theorem coreReset_eq_some {s t : State} (h : s.coreReset = some t) : t = { s with response := none } := by
  unfold State.coreReset at h
  split at h
  · exact (Option.some.inj h).symm
  · cases h

/-! ### The width (R6, R23, 70_reset_and_hazards.md R160) -/

theorem step_width {s t : State} (h : step s = .next t) : t.width = s.width := by
  cases hr : s.request with
  | none => rw [step_of_no_request hr] at h; cases h; rfl
  | some q => rcases step_answers_or_refuses hr with ⟨p, n, h'⟩ | ⟨r, h'⟩ <;> rw [h'] at h <;> cases h; rfl

theorem serve_width {s t : State} {q : Request} (h : serve s q = .next t) : t.width = s.width := by
  rcases serve_cases s q with ⟨p, n, -, h'⟩ | ⟨r, -, h'⟩ <;> rw [h'] at h <;> cases h <;> rfl

/-- Settles O13: each way a request ends, and the reset, leaves the width as it was; a run by induction on its requests. -/
theorem widthNeverChanges : Obligations.WidthNeverChanges := by
  intro s t
  refine ⟨step_width, fun q => serve_width, fun qs => ?_, fun h => ?_⟩
  · exact serveAll_keeps (P := fun u => u.width = s.width) (fun hs h => (serve_width h).trans hs) rfl
  · rw [coreReset_eq_some h]

/-! ### The draws of each answer (R12, 60_exceptions.md R143, log 3)

For an answer `p` of each operation: the drawn value and where the place in the sequence goes, or that it stays. -/

/-- The response and the place in the sequence that an answer leaves. -/
theorem accept_answer {s t : State} {p p' : Response} {n : Nat}
    (h : (.next (s.accept p' n) : Host.Outcome State Fault Refusal) = .next t) (hp : t.response = some p) :
    p = p' ∧ t.drawCount = s.drawCount + n := by
  cases h
  exact ⟨(Option.some.inj hp).symm, rfl⟩

theorem overflowIf_ne_invalidDigit (c : Bool) : overflowIf c ≠ .invalidDigit := by cases c <;> decide

theorem addResult_ne_invalidDigit (w : Width) (a b : Word) : (addResult w a b).2 ≠ .invalidDigit :=
  overflowIf_ne_invalidDigit _

theorem mulResult_ne_invalidDigit (w : Width) (a b : Word) : (mulResult w a b).2 ≠ .invalidDigit := by
  unfold mulResult
  dsimp only
  split <;> simp

section
variable {s t : State} {q : Request} {p : Response} (hq : s.request = some q) (hp : t.response = some p)
include hq hp

theorem codecOp_draws {i : Nibble} {f : Word → Word} (h : codecOp i f s = .next t) : t.drawCount = s.drawCount := by
  rw [codecOp_of_request hq] at h
  split at h
  · exact (accept_answer h hp).2
  · cases h

theorem execB2bcd_draws (h : execB2bcd s = .next t) :
    (p.err = .overflow ∧ p.r = s.drawWord ∧ t.drawCount = s.drawCount + 1) ∨
      (p.err = .none ∧ t.drawCount = s.drawCount) := by
  rw [execB2bcd_of_request hq] at h
  split at h <;> obtain ⟨rfl, hn⟩ := accept_answer h hp
  · exact .inl ⟨rfl, rfl, hn⟩
  · exact .inr ⟨rfl, hn⟩

theorem execBcd2b_draws (h : execBcd2b s = .next t) : t.drawCount = s.drawCount := by
  rw [execBcd2b_of_request hq] at h
  exact (accept_answer h hp).2

theorem execS2bcd_draws (h : execS2bcd s = .next t) :
    (p.err = .overflow ∧ p.r = s.drawWord ∧ t.drawCount = s.drawCount + 1) ∨
      (p.err = .none ∧ t.drawCount = s.drawCount) := by
  rw [execS2bcd_of_request hq] at h
  split at h <;> obtain ⟨rfl, hn⟩ := accept_answer h hp
  · exact .inl ⟨rfl, rfl, hn⟩
  · exact .inr ⟨rfl, hn⟩

theorem bcdOp_draws {f : Word → Word → Word × ErrSignal} (hf : ∀ a b, (f a b).2 ≠ .invalidDigit)
    (h : bcdOp s f = .next t) :
    (p.err = .invalidDigit ∧ p.r = s.drawWord ∧ t.drawCount = s.drawCount + 1) ∨
      (p.err ≠ .invalidDigit ∧ t.drawCount = s.drawCount) := by
  rw [bcdOp_of_request hq] at h
  split at h <;> obtain ⟨rfl, hn⟩ := accept_answer h hp
  · exact .inr ⟨hf _ _, hn⟩
  · exact .inl ⟨rfl, rfl, hn⟩

theorem execBcd2s_draws (hw : q.obuf.wf = true) (h : execBcd2s s = .next t) :
    (p.err = .invalidDigit ∧
      (∀ k, k < spoiledCount s.width (s.cap q) → p.obuf.read k = some (s.drawByte k)) ∧
      p.aux = s.drawNat (spoiledCount s.width (s.cap q)) ∧
      t.drawCount = s.drawCount + (spoiledCount s.width (s.cap q) + 1)) ∨
    (p.err ≠ .invalidDigit ∧ t.drawCount = s.drawCount) := by
  rcases execBcd2s_cases hq with ⟨-, h'⟩ | ⟨-, -, m, hm, h'⟩ | ⟨-, -, -, h'⟩ | ⟨-, -, -, m, -, h'⟩ <;> rw [h'] at h
  · cases h
  · obtain ⟨rfl, hn⟩ := accept_answer h hp
    obtain ⟨-, -, hread⟩ := Memory.writeFrom_spec hw hm
    refine .inl ⟨rfl, fun k hk => ?_, rfl, hn⟩
    simp [hread, hk]
  · obtain ⟨rfl, hn⟩ := accept_answer h hp
    exact .inr ⟨by simp, hn⟩
  · obtain ⟨rfl, hn⟩ := accept_answer h hp
    exact .inr ⟨by simp, hn⟩

/-- The answers with nothing unspecified in them draw nothing. -/
theorem exec_draws_nothing (hw : q.obuf.wf = true) {i : Instr} (h : exec i s = .next t)
    (he : p.err = .none ∨ i = .bcd2b ∨ ((i = .bcd2s ∨ i = .badd ∨ i = .bmul) ∧ p.err = .overflow)) :
    t.drawCount = s.drawCount := by
  cases i with
  | dget k => rw [exec, execDget] at h; exact codecOp_draws hq hp h
  | dset k n => rw [exec, execDset] at h; exact codecOp_draws hq hp h
  | dval k => rw [exec, execDval] at h; exact codecOp_draws hq hp h
  | bcd2b => exact execBcd2b_draws hq hp h
  | b2bcd =>
    rcases execB2bcd_draws hq hp h with ⟨hov, -⟩ | ⟨-, hn⟩
    · simp [hov] at he
    · exact hn
  | s2bcd =>
    rcases execS2bcd_draws hq hp h with ⟨hov, -⟩ | ⟨-, hn⟩
    · simp [hov] at he
    · exact hn
  | bcd2s =>
    rcases execBcd2s_draws hq hp hw h with ⟨hinv, -⟩ | ⟨-, hn⟩
    · simp [hinv] at he
    · exact hn
  | badd =>
    rcases bcdOp_draws hq hp (addResult_ne_invalidDigit _) h with ⟨hinv, -⟩ | ⟨-, hn⟩
    · simp [hinv] at he
    · exact hn
  | bmul =>
    rcases bcdOp_draws hq hp (mulResult_ne_invalidDigit _) h with ⟨hinv, -⟩ | ⟨-, hn⟩
    · simp [hinv] at he
    · exact hn

end

theorem serve_drawCount_le {s t : State} {q : Request} (h : serve s q = .next t) : s.drawCount ≤ t.drawCount := by
  rcases serve_cases s q with ⟨p, n, -, h'⟩ | ⟨r, -, h'⟩ <;> rw [h'] at h <;> cases h <;> simp

/-- Settles O53: the draws of each operation's answers, and that no instruction, run or reset moves the place back. -/
theorem unspecifiedResultsAreFreshFreeValues : Obligations.UnspecifiedResultsAreFreshFreeValues := by
  refine ⟨fun s t q p hq hw hp => ⟨?b2bcd, ?s2bcd, ?badd, ?bmul, ?bcd2s, ?nothing⟩,
    fun s t => ⟨fun i => exec_drawCount_le, fun qs => ?run, fun h => ?reset⟩⟩
  case b2bcd => exact fun h he => ((execB2bcd_draws hq hp h).resolve_right (by simp [he])).2
  case s2bcd => exact fun h he => ((execS2bcd_draws hq hp h).resolve_right (by simp [he])).2
  case badd => exact fun h he => ((bcdOp_draws hq hp (addResult_ne_invalidDigit _) h).resolve_right (by simp [he])).2
  case bmul => exact fun h he => ((bcdOp_draws hq hp (mulResult_ne_invalidDigit _) h).resolve_right (by simp [he])).2
  case bcd2s => exact fun h he => ((execBcd2s_draws hq hp hw h).resolve_right (by simp [he])).2
  case nothing => exact fun i h => exec_draws_nothing hq hp hw h
  case run =>
    exact serveAll_keeps (P := fun u => s.drawCount ≤ u.drawCount) (fun hs h => hs.trans (serve_drawCount_le h)) le_rfl
  case reset => rw [coreReset_eq_some h]

end Sys2Proof.Machine
end

section
/-! PROOFS. The state and the values of 10_state.md: the value functions (R27 to R31), the response each request gets and
what it depends on (R20, R24, R25), the invariant, and the codes of ERR (R26). -/

namespace Sys2Proof.Machine

/-! ### The value functions (R27 to R31) -/

/-- Settles O23: validity bounds each nibble, and a nibble is a base-16 digit of the word. -/
theorem validityIsPerNibble : Obligations.ValidityIsPerNibble := by
  refine fun w x => ⟨nib_toNat x, ?_⟩
  simp only [valid_iff, nib_toNat]

/-- The decimal reading of any word is at most 15 (10^D - 1) / 9 (R28). -/
theorem val_le_any (w : Width) (x : Word) : val w x ≤ 15 * (10 ^ w.digits - 1) / 9 := by
  have h := digitSum_le_any x w.digits
  rw [val_eq, Nat.le_div_iff_mul_le (by norm_num)]
  omega

/-- Settles O24: the accumulation is the place-value sum, and each nibble is at most 9 or at most 15. -/
theorem decimalReadingIsThePlaceValueSum : Obligations.DecimalReadingIsThePlaceValueSum := by
  refine fun w x => ⟨?_, fun hv => Nat.le_sub_one_of_lt (val_lt_limit hv), val_le_any w x⟩
  simp only [val_eq, digitSum, nib_toNat]

/-- The nibbles of `pack(v)` above the most significant digit of v are zero (R29). -/
theorem nib_pack_of_lt (w : Width) {v i : Nat} (h : v < 10 ^ i) : nib (pack w v) i = 0 := by
  rw [nib_pack, Nat.div_eq_of_lt h]
  split <;> rfl

/-- Settles O25: `val` and `pack` undo each other between the numbers below 10^D and the valid W-bit words. -/
theorem packingIsABijection : Obligations.PackingIsABijection := by
  refine fun w => ⟨fun v hv => ⟨pack_lt w v, pack_valid w v, ?reading, nib_pack_toNat w v, fun i => nib_pack_of_lt w⟩,
    fun x hx hvalid => ⟨val_lt_limit hvalid, pack_val hx hvalid⟩⟩
  case reading => rw [val_pack, Nat.mod_eq_of_lt hv]

/-- The bound on any decimal reading is below 2^W (R31(b)). -/
theorem any_reading_bound_lt (w : Width) : 15 * (10 ^ w.digits - 1) / 9 < 2 ^ w.bits := by cases w <;> decide

/-- Settles O26: the bounds of R28 against 2^W = 16^D. -/
theorem readingsFitTheWord : Obligations.ReadingsFitTheWord := by
  refine fun w => ⟨(Nat.sub_le _ _).trans_lt w.limit_lt, any_reading_bound_lt w, val_lt_two_pow w, fun x y hx hy => ?_⟩
  rw [two_mul]
  exact Nat.add_lt_add (val_lt_limit hx) (val_lt_limit hy)

/-! ### Words of W bits (R24, R25) -/

/-- A word below 16 fits every width. -/
theorem wordFits_of_lt {w : Width} {x : Word} (h : x.toNat < 16) : wordFits w x :=
  h.trans_le (by cases w <;> decide)

/-- A nibble as a word is below 16 (40_digit_codec.md R81). -/
theorem toNat_nib_setWidth_lt (x : Word) (i : Nat) : ((nib x i).setWidth 64).toNat < 16 := by
  rw [BitVec.toNat_setWidth_of_le (by norm_num)]
  exact nib_lt x i

theorem ofNat_val_fits (w : Width) (x : Word) : wordFits w (BitVec.ofNat 64 (val w x)) := by
  rw [wordFits, toNat_ofNat_val]
  exact val_lt_two_pow w x

theorem allOnes_fits (w : Width) : wordFits w (allOnes w) := by
  rw [wordFits, allOnes_toNat]
  exact Nat.sub_lt (by positivity) (by norm_num)

theorem addResult_fits {w : Width} {a b : Word} (ha : valid w a = true) (hb : valid w b = true) :
    wordFits w (addResult w a b).1 := by
  rw [(addResult_spec w a b ha hb).1]
  exact pack_lt w _

theorem mulResult_fits {w : Width} {a b : Word} (ha : valid w a = true) (hb : valid w b = true) :
    wordFits w (mulResult w a b).1 := by
  obtain ⟨hsmall, hlarge⟩ := mulResult_spec w a b
  rcases Nat.lt_or_ge (val w a * val w b) w.limit with hlt | hge
  · rw [hsmall hlt]
    exact pack_lt w _
  · rw [hlarge hge (val_mul_val_lt ha hb)]
    exact allOnes_fits w

/-! ### The answers of the word operations (R25) -/

/-- The request is answered with a W-bit word, AUX 0 and OBUF as it was supplied. -/
def WordAnswer (s : State) (q : Request) (t : State) : Prop :=
  ∃ r e n, wordFits s.width r ∧ t = s.accept (wordResponse q r e) n

section
variable {s t : State} {q : Request} (hq : s.request = some q)
include hq

theorem codecOp_wordAnswer {i : Nibble} {f : Word → Word}
    (hf : ∀ a, wordFits s.width a → i.toNat < s.width.digits → wordFits s.width (f a)) (h : codecOp i f s = .next t) :
    WordAnswer s q t := by
  rw [codecOp_of_request hq] at h
  split at h <;> cases h
  exact ⟨_, _, _, hf _ (trunc_lt _ _) ‹_›, rfl⟩

theorem bcdOp_wordAnswer {f : Word → Word → Word × ErrSignal}
    (hf : ∀ {a b}, valid s.width a = true → valid s.width b = true → wordFits s.width (f a b).1)
    (h : bcdOp s f = .next t) : WordAnswer s q t := by
  rw [bcdOp_of_request hq] at h
  split at h <;> cases h
  case isTrue hv => exact ⟨_, _, _, hf hv.1 hv.2, rfl⟩
  case isFalse => exact ⟨_, _, _, drawWord_lt s, rfl⟩

theorem execB2bcd_wordAnswer (h : execB2bcd s = .next t) : WordAnswer s q t := by
  rw [execB2bcd_of_request hq] at h
  split at h <;> cases h
  · exact ⟨_, _, _, drawWord_lt s, rfl⟩
  · exact ⟨_, _, _, pack_lt _ _, rfl⟩

theorem execBcd2b_wordAnswer (h : execBcd2b s = .next t) : WordAnswer s q t := by
  rw [execBcd2b_of_request hq] at h
  cases h
  exact ⟨_, _, _, ofNat_val_fits _ _, rfl⟩

/-- S2BCD answers a W-bit word and leaves OBUF as it was supplied; its AUX is the cursor (42_text.md R101). -/
theorem execS2bcd_answer (h : execS2bcd s = .next t) :
    ∃ p n, t = s.accept p n ∧ wordFits s.width p.r ∧ p.obuf = q.obuf := by
  rw [execS2bcd_of_request hq] at h
  split at h <;> cases h
  · exact ⟨_, _, rfl, drawWord_lt s, rfl⟩
  · exact ⟨_, _, rfl, pack_lt _ _, rfl⟩

/-- Every instruction but S2BCD and BCD2S answers a word alone. -/
theorem exec_wordAnswer {i : Instr} (hi : i ≠ .s2bcd) (hi' : i ≠ .bcd2s) (h : exec i s = .next t) :
    WordAnswer s q t := by
  cases i with
  | dget k =>
    rw [exec, execDget] at h
    exact codecOp_wordAnswer hq (fun a _ _ => wordFits_of_lt (toNat_nib_setWidth_lt a _)) h
  | dset k n =>
    rw [exec, execDset] at h
    exact codecOp_wordAnswer hq (fun a ha hk => setNib_lt _ a _ n ha hk) h
  | dval k =>
    rw [exec, execDval] at h
    exact codecOp_wordAnswer hq (fun a _ _ => wordFits_of_lt (by split <;> decide)) h
  | b2bcd => exact execB2bcd_wordAnswer hq h
  | bcd2b => exact execBcd2b_wordAnswer hq h
  | s2bcd => exact absurd rfl hi
  | bcd2s => exact absurd rfl hi'
  | badd => exact bcdOp_wordAnswer hq addResult_fits h
  | bmul => exact bcdOp_wordAnswer hq mulResult_fits h

/-- What every instruction but BCD2S answers: a W-bit word, OBUF as it was supplied, and AUX 0 but for S2BCD. -/
theorem exec_answer_of_ne_bcd2s {i : Instr} (hi : i ≠ .bcd2s) (h : exec i s = .next t) :
    ∃ p n, t = s.accept p n ∧ wordFits s.width p.r ∧ p.obuf = q.obuf ∧ (i ≠ .s2bcd → p.aux = 0) := by
  by_cases hs : i = .s2bcd
  · subst hs
    obtain ⟨p, n, ht, hr, ho⟩ := execS2bcd_answer hq h
    exact ⟨p, n, ht, hr, ho, fun hne => absurd rfl hne⟩
  · obtain ⟨r, e, n, hr, ht⟩ := exec_wordAnswer hq hs hi h
    exact ⟨_, n, ht, hr, rfl, fun _ => rfl⟩

end

/-- Settles O19: the answer replaces the request, and its OBUF is the one supplied. -/
theorem wordOperationsFrame : Obligations.WordOperationsFrame := by
  intro s t q i hq hi h
  obtain ⟨p, n, rfl, -, ho, haux⟩ := exec_answer_of_ne_bcd2s hq hi h
  exact ⟨p, rfl, by rw [ho], fun k => by rw [ho], haux, Nat.le_add_right _ _⟩

/-! ### The invariant (R24, R25, 20_memory.md R42) -/

/-- A state with neither request nor response meets the invariant. -/
theorem inv_of_idle {s : State} (hq : s.request = none) (hp : s.response = none) : s.Inv :=
  ⟨fun _ h => by simp [hq] at h, fun _ h => by simp [hp] at h⟩

/-- Settles O11: at the start of a run there is no request and no response. -/
theorem resetStateIsWellFormed : Obligations.ResetStateIsWellFormed :=
  ⟨fun _ => inv_of_idle rfl rfl, inv_of_idle rfl rfl⟩

/-- A well-formed answer leaves the invariant, whatever stood there before. -/
theorem accept_inv {s : State} {p : Response} {n : Nat} (hp : p.Wf s.width) : (s.accept p n).Inv := by
  refine ⟨fun _ h => by simp at h, fun p' h => ?_⟩
  cases h
  exact hp

/-- BCD2S answers the word 0 and keeps OBUF canonical (42_text.md R104). -/
theorem execBcd2s_answer_wf {s t : State} {q : Request} (hq : s.request = some q) (hw : q.obuf.wf = true)
    (h : execBcd2s s = .next t) : ∃ p n, t = s.accept p n ∧ p.Wf s.width := by
  have hzero : wordFits s.width 0 := wordFits_of_lt (by decide)
  rcases execBcd2s_cases hq with ⟨-, h'⟩ | ⟨-, -, m, hm, h'⟩ | ⟨-, -, -, h'⟩ | ⟨-, -, -, m, hm, h'⟩ <;>
    rw [h'] at h <;> cases h
  · exact ⟨_, _, rfl, hzero, (Memory.writeFrom_spec hw hm).2.1⟩
  · exact ⟨_, _, rfl, hzero, hw⟩
  · exact ⟨_, _, rfl, hzero, (Memory.writeFrom_spec hw hm).2.1⟩

/-- Every instruction answers a request of canonical OBUF with a well-formed response. -/
theorem exec_answer_wf {s t : State} {q : Request} {i : Instr} (hq : s.request = some q) (hw : q.obuf.wf = true)
    (h : exec i s = .next t) : ∃ p n, t = s.accept p n ∧ p.Wf s.width := by
  by_cases hi : i = .bcd2s
  · subst hi
    exact execBcd2s_answer_wf hq hw h
  · obtain ⟨p, n, ht, hr, ho, -⟩ := exec_answer_of_ne_bcd2s hq hi h
    exact ⟨p, n, ht, hr, ho ▸ hw⟩

/-- Settles O12: an idle step changes nothing, and each answer is well formed whatever the free values are. -/
theorem stepKeepsWordsAndBuffersWellFormed : Obligations.StepKeepsWordsAndBuffersWellFormed := by
  intro s t hinv h
  cases hq : s.request with
  | none =>
    rw [step_of_no_request hq] at h
    cases h
    exact hinv
  | some q =>
    obtain ⟨-, -, -, hobuf⟩ := hinv.1 q hq
    cases hd : decode s.width q.cmd with
    | error r => rw [step_of_undecoded hq hd] at h; cases h
    | ok i =>
      rw [step_of_decoded hq hd] at h
      obtain ⟨p, n, rfl, hp⟩ := exec_answer_wf hq hobuf h
      exact accept_inv hp

/-! ### What a response depends on (R20, R24) -/

theorem serveAll_width {s t : State} {qs : List Request} (h : serveAll qs s = .next t) : t.width = s.width :=
  serveAll_keeps (P := fun u => u.width = s.width) (fun hs h' => (serve_width h').trans hs) rfl h

/-- Settles O17: a run leaves the next request the width and the place in the sequence of free values, and no more. -/
theorem earlierRequestsDoNotMatter : Obligations.EarlierRequestsDoNotMatter := by
  intro qs s t q h
  rw [← serveAll_width h]
  apply responseTo_determined <;> rfl

/-- Two outcomes are alike but for the buffer: the same answer, with the buffer `m` in the second, or the same refusal.
One state `s` serves both: an answer takes the request, so that the state it leaves does not tell which one stood there. -/
def AlikeButObuf (m : Memory) (o o' : Host.Outcome State Fault Refusal) : Prop :=
  (∃ s p n, o = .next (State.accept s p n) ∧ o' = .next (State.accept s { p with obuf := m } n)) ∨
    ∃ r, o = .refused r ∧ o' = .refused r

theorem AlikeButObuf.ite {m : Memory} {c : Prop} [Decidable c] {o₁ o₁' o₂ o₂' : Host.Outcome State Fault Refusal}
    (h₁ : AlikeButObuf m o₁ o₁') (h₂ : AlikeButObuf m o₂ o₂') :
    AlikeButObuf m (if c then o₁ else o₂) (if c then o₁' else o₂') := by
  by_cases hc : c
  · simpa only [if_pos hc] using h₁
  · simpa only [if_neg hc] using h₂

section
variable {s : State} {q q' : Request}

theorem opA_congr (h : q.a = q'.a) : (s.present q').opA q' = (s.present q).opA q := by simp [State.opA, h]

theorem opB_congr (h : q.b = q'.b) : (s.present q').opB q' = (s.present q).opB q := by simp [State.opB, h]

theorem codecOp_alike (h : q.a = q'.a) (i : Nibble) (f : Word → Word) :
    AlikeButObuf q'.obuf (codecOp i f (s.present q)) (codecOp i f (s.present q')) := by
  rw [codecOp_of_request (State.present_request s q), codecOp_of_request (State.present_request s q'), opA_congr h]
  exact .ite (.inl ⟨_, _, _, rfl, rfl⟩) (.inr ⟨_, rfl, rfl⟩)

theorem bcdOp_alike (ha : q.a = q'.a) (hb : q.b = q'.b) (f : Word → Word → Word × ErrSignal) :
    AlikeButObuf q'.obuf (bcdOp (s.present q) f) (bcdOp (s.present q') f) := by
  rw [bcdOp_of_request (State.present_request s q), bcdOp_of_request (State.present_request s q'), opA_congr ha,
    opB_congr hb]
  exact .ite (.inl ⟨_, _, _, rfl, rfl⟩) (.inl ⟨_, _, _, rfl, rfl⟩)

theorem execB2bcd_alike (h : q.a = q'.a) :
    AlikeButObuf q'.obuf (execB2bcd (s.present q)) (execB2bcd (s.present q')) := by
  rw [execB2bcd_of_request (State.present_request s q), execB2bcd_of_request (State.present_request s q'), opA_congr h]
  exact .ite (.inl ⟨_, _, _, rfl, rfl⟩) (.inl ⟨_, _, _, rfl, rfl⟩)

theorem execBcd2b_alike (h : q.a = q'.a) :
    AlikeButObuf q'.obuf (execBcd2b (s.present q)) (execBcd2b (s.present q')) := by
  rw [execBcd2b_of_request (State.present_request s q), execBcd2b_of_request (State.present_request s q'), opA_congr h]
  exact .inl ⟨_, _, _, rfl, rfl⟩

theorem execS2bcd_alike (h : q.ibuf = q'.ibuf) :
    AlikeButObuf q'.obuf (execS2bcd (s.present q)) (execS2bcd (s.present q')) := by
  rw [execS2bcd_of_request (State.present_request s q), execS2bcd_of_request (State.present_request s q'), ← h]
  exact .ite (.inl ⟨_, _, _, rfl, rfl⟩) (.inl ⟨_, _, _, rfl, rfl⟩)

/-- BCD2S writes the OBUF it is given, so that requests with the same A, B and OBUF get one outcome. -/
theorem execBcd2s_congr (ha : q.a = q'.a) (hb : q.b = q'.b) (ho : q.obuf = q'.obuf) :
    execBcd2s (s.present q') = execBcd2s (s.present q) := by
  simp only [execBcd2s, withRequest_some (State.present_request s _), State.cap, opA_congr ha, opB_congr hb,
    answerText, ← ho]
  rfl

/-- Requests that agree on the fields an instruction uses get the same answer but for OBUF, or the same refusal. -/
theorem exec_alike {i : Instr} (hi : i ≠ .bcd2s) (h : usesSame i q q') :
    AlikeButObuf q'.obuf (exec i (s.present q)) (exec i (s.present q')) := by
  cases i with
  | dget k => simpa only [exec, execDget] using codecOp_alike h k _
  | dset k n => simpa only [exec, execDset] using codecOp_alike h k _
  | dval k => simpa only [exec, execDval] using codecOp_alike h k _
  | b2bcd => exact execB2bcd_alike h
  | bcd2b => exact execBcd2b_alike h
  | s2bcd => exact execS2bcd_alike h
  | bcd2s => exact absurd rfl hi
  | badd => exact bcdOp_alike h.1 h.2 _
  | bmul => exact bcdOp_alike h.1 h.2 _

end

/-- Settles O18: BCD2S gives one outcome to both requests, and every other instruction the same one but for OBUF. -/
theorem unusedFieldsHaveNoEffect : Obligations.UnusedFieldsHaveNoEffect := by
  intro s i q q' h
  by_cases hi : i = .bcd2s
  · subst hi
    obtain ⟨ha, hb, ho⟩ := h
    have heq : exec .bcd2s (s.present q') = exec .bcd2s (s.present q) := execBcd2s_congr ha hb ho
    refine ⟨fun p hp => ⟨p, ?_, rfl, rfl, rfl, fun _ => ⟨rfl, fun _ => rfl⟩⟩, fun r hr => heq.trans hr⟩
    rwa [Answers, heq]
  · rcases exec_alike (s := s) hi h with ⟨u, p, n, hq, hq'⟩ | ⟨r, hq, hq'⟩
    · refine ⟨?_, fun r hr => by rw [hq] at hr; cases hr⟩
      rintro p' ⟨t, ht, hp'⟩
      obtain ⟨rfl, -⟩ := accept_answer (hq.symm.trans ht) hp'
      exact ⟨_, ⟨_, hq', rfl⟩, rfl, rfl, rfl, fun hb => absurd hb hi⟩
    · refine ⟨?_, fun r' hr => by rw [← hr, hq, hq']⟩
      rintro p' ⟨t, ht, -⟩
      rw [hq] at ht
      cases ht

/-! ### The error signal (R26) -/

/-- Settles O50: the code of each of the three signals. -/
theorem errorSignalHasThreeCodes : Obligations.ErrorSignalHasThreeCodes := by
  refine ⟨rfl, rfl, rfl, fun e => ?_⟩
  cases e <;> decide

end Sys2Proof.Machine
end

section
/-! PROOFS. The memory (20_memory.md): byte buffers (R40 to R42), the writes of BCD2S (R42), and the step (R47, R49). -/

namespace Sys2Proof.Machine

/-! ### Byte buffers (R40 to R42, log 4) -/

theorem Memory.read_eq_none_iff {m : Memory} {k : Nat} : m.read k = none ↔ m.size ≤ k := by
  rw [← Option.not_isSome_iff_eq_none, Memory.read_isSome, decide_eq_true_eq, not_lt]

theorem Memory.write_eq_none_iff {m : Memory} {k : Nat} {b : Byte} : m.write k b = none ↔ m.size ≤ k := by
  rw [← Option.not_isSome_iff_eq_none, Memory.write_isSome, decide_eq_true_eq, not_lt]

/-- Settles O21: both accesses answer exactly below the size, and a write replaces the byte of its offset alone. -/
theorem bufferWriteThenRead : Obligations.BufferWriteThenRead := by
  refine fun m k b hw => ⟨Memory.read_eq_none_iff, Memory.write_eq_none_iff, fun m' h => ?_⟩
  obtain ⟨-, hsize, hwf, hread⟩ := Memory.write_spec hw h
  exact ⟨hwf, hsize, by rw [hread, if_pos rfl], fun j hj => by rw [hread, if_neg hj]⟩

/-- An offset at or above the size lists nothing in a canonical buffer. -/
theorem cellsRead_above {size lo : Nat} {cs : List Host.Cell} (h : cellsWf size lo cs = true) {k : Nat}
    (hk : size ≤ k) : cellsRead cs k = Memory.unlisted := by
  induction cs generalizing lo with
  | nil => rfl
  | cons c cs ih =>
    obtain ⟨a, v⟩ := c
    simp only [cellsWf, Bool.and_eq_true, decide_eq_true_eq] at h
    obtain ⟨⟨⟨-, ha⟩, -⟩, hcs⟩ := h
    rw [cellsRead, if_neg (by omega)]
    exact ih hcs

/-- The cells of a canonical buffer give each offset the byte it reads, and an offset with none the unlisted byte. -/
theorem Memory.cellsRead_eq {m : Memory} (hw : m.wf = true) (k : Nat) :
    cellsRead m.cells k = (m.read k).getD Memory.unlisted := by
  rcases Nat.lt_or_ge k m.size with hk | hk
  · rw [Memory.read_eq_some hk, Option.getD_some]
  · rw [Memory.read_eq_none hk, Option.getD_none, cellsRead_above hw hk]

/-- Settles O22: the bytes that are read determine every listed cell. -/
theorem equalBuffersAreEqualData : Obligations.EqualBuffersAreEqualData := by
  intro m m' hw hw' hsize hread
  have hcells : m.cells = m'.cells :=
    cells_ext hw (by rw [hsize]; exact hw') fun k => by rw [Memory.cellsRead_eq hw, Memory.cellsRead_eq hw', hread]
  cases m
  cases m'
  cases hsize
  cases hcells
  rfl

/-- A run of writes keeps every byte from its end on. -/
theorem Memory.read_writeFrom_of_ge {m m' : Memory} {k j : Nat} {bs : List Byte} (hw : m.wf = true)
    (h : m.writeFrom k bs = some m') (hj : k + bs.length ≤ j) : m'.read j = m.read j := by
  obtain ⟨-, -, hread⟩ := Memory.writeFrom_spec hw h
  rw [hread, if_neg (by omega)]

/-! ### The writes of BCD2S (R42, 42_text.md R104) -/

/-- What BCD2S answers: R is 0, and OBUF has taken a run of at most min(CAP, D + 1) bytes from offset 0, an empty one on
OVERFLOW, and on NONE one that ends with the byte at offset AUX. -/
theorem execBcd2s_writes {s t : State} {q : Request} (hq : s.request = some q) (h : execBcd2s s = .next t) :
    ∃ p n bs, t = s.accept p n ∧ p.r = 0 ∧ q.obuf.writeFrom 0 bs = some p.obuf ∧
      bs.length ≤ min (s.cap q) (s.width.digits + 1) ∧ (p.err = .overflow → bs.length = 0) ∧
      (p.err = .none → bs.length = p.aux + 1) := by
  rcases execBcd2s_cases hq with ⟨-, h'⟩ | ⟨-, -, m, hm, h'⟩ | ⟨-, -, -, h'⟩ | ⟨-, -, hcap, m, hm, h'⟩ <;>
    rw [h'] at h <;> cases h
  · exact ⟨_, _, _, rfl, rfl, hm, by simp [spoiledCount], by simp, by simp⟩
  · exact ⟨_, _, [], rfl, rfl, rfl, Nat.zero_le _, fun _ => rfl, by simp⟩
  · obtain ⟨-, hsig⟩ := sig_bounds s.width (s.opA q)
    exact ⟨_, _, _, rfl, rfl, hm, by simp; omega, by simp, by simp⟩

/-- Settles O20: the bytes from the end of the written run on are kept, and each signal bounds that run. -/
theorem textOutputFrame : Obligations.TextOutputFrame := by
  intro s t q hq hw h
  obtain ⟨p, n, bs, rfl, hr, hm, hlen, hover, hnone⟩ := execBcd2s_writes hq h
  have hkeep : ∀ k, bs.length ≤ k → p.obuf.read k = q.obuf.read k := fun k hk =>
    Memory.read_writeFrom_of_ge hw hm (by omega)
  refine ⟨p, rfl, hr, (Memory.writeFrom_spec hw hm).1, fun k hk => hkeep k (hlen.trans hk), fun he k => ?overflow,
    fun he => ⟨?terminator, fun k hk => ?afterTerminator⟩, Nat.le_add_right _ _⟩
  case overflow => exact hkeep k (by rw [hover he]; exact Nat.zero_le k)
  case terminator => exact (hnone he).symm.le.trans hlen
  case afterTerminator => exact hkeep k ((hnone he).le.trans hk)

/-! ### The step (R47, R49, 60_exceptions.md R144) -/

/-- Settles O9: an idle step, the meaning of a decoded request, and the refusal of one that does not decode. -/
theorem stepRunsTheDecodedInstruction : Obligations.StepRunsTheDecodedInstruction :=
  fun _ => ⟨step_of_no_request, fun _ _ => step_of_decoded, fun _ _ => step_of_undecoded⟩

theorem step_ne_fault (s : State) (f : Fault) : step s ≠ .fault f := by
  cases hq : s.request with
  | none => simp [step_of_no_request hq]
  | some q => rcases step_answers_or_refuses hq with ⟨p, n, h⟩ | ⟨r, h⟩ <;> simp [h]

theorem exec_ne_fault {s : State} {q : Request} (hq : s.request = some q) (i : Instr) (f : Fault) :
    exec i s ≠ .fault f := by
  rcases exec_answers_or_refuses hq i with ⟨p, n, h⟩ | h | h <;> simp [h]

/-- Settles O14: every request is answered or refused, and an idle step changes nothing. -/
theorem noStepFaults : Obligations.NoStepFaults := by
  refine ⟨step_ne_fault, fun s i f hne => ?_⟩
  obtain ⟨q, hq⟩ := Option.ne_none_iff_exists'.mp hne
  exact exec_ne_fault hq i f

end Sys2Proof.Machine
end

section
/-! PROOFS. The encoding (30_encoding.md): the decoder against the encoder and the opcode map (R64 to R67), the assembly
lines and pseudo-instructions (R69, R70), and the request statement of the host script (R71). -/

namespace Sys2Proof

/-! ### The decoder and the encoder (R64, R66, R67) -/

/-- The field checks read every instruction's own word back (R64). -/
theorem decodeFields_encode (i : Instr) : decodeFields (encode i) = .ok i := by
  cases i with
  | dget k => exact Laws.FieldsReadBack.dget k
  | dset k n => exact Laws.FieldsReadBack.dset k n
  | dval k => exact Laws.FieldsReadBack.dval k
  | b2bcd => exact Laws.FieldsReadBack.b2bcd
  | bcd2b => exact Laws.FieldsReadBack.bcd2b
  | s2bcd => exact Laws.FieldsReadBack.s2bcd
  | bcd2s => exact Laws.FieldsReadBack.bcd2s
  | badd => exact Laws.FieldsReadBack.badd
  | bmul => exact Laws.FieldsReadBack.bmul

theorem decode_encode {w : Width} {i : Instr} (h : wellFormed w i = true) : decode w (encode i) = .ok i :=
  (decode_eq_ok w _ i).mpr ⟨decodeFields_encode i, h⟩

theorem decode_encode_of_ill_formed {w : Width} {i : Instr} (h : wellFormed w i = false) :
    decode w (encode i) = .error .indexRange :=
  decode_of_index w (decodeFields_encode i) h

/-- Settles O1: the field checks read the word back, and the index check passes a well-formed instruction. -/
theorem encodedInstructionsDecode : Obligations.EncodedInstructionsDecode := fun _ _ => decode_encode

/-- The instruction that the field checks read fixes all four fields of the word (R61, R64). -/
theorem decodeFields_injective {c d : CmdWord} {i : Instr} (hc : decodeFields c = .ok i) (hd : decodeFields d = .ok i) :
    c = d := by
  rw [decodeFields_eq_ok] at hc hd
  obtain ⟨hrc, hc⟩ := hc
  obtain ⟨hrd, hd⟩ := hd
  have hrsv : rsvField c = rsvField d := hrc.trans hrd.symm
  cases i with
  | dset k n =>
    obtain ⟨hop, hidx, hnib⟩ := hc
    obtain ⟨hop', hidx', hnib'⟩ := hd
    exact cmdWord_ext (hop.trans hop'.symm) (hidx.symm.trans hidx') (hnib.symm.trans hnib') hrsv
  | dget k | dval k =>
    obtain ⟨hop, hnib, hidx⟩ := hc
    obtain ⟨hop', hnib', hidx'⟩ := hd
    exact cmdWord_ext (hop.trans hop'.symm) (hidx.symm.trans hidx') (hnib.trans hnib'.symm) hrsv
  | b2bcd | bcd2b | s2bcd | bcd2s | badd | bmul =>
    obtain ⟨hop, hnib, hidx⟩ := hc
    obtain ⟨hop', hnib', hidx'⟩ := hd
    exact cmdWord_ext (hop.trans hop'.symm) (hidx.trans hidx'.symm) (hnib.trans hnib'.symm) hrsv

/-- Settles O2: the word and the encoding of its instruction are read as the same instruction, so they are one word. -/
theorem decodedWordsAreEncodings : Obligations.DecodedWordsAreEncodings := by
  intro w c i h
  obtain ⟨hfields, hwf⟩ := (decode_eq_ok w c i).mp h
  exact ⟨decodeFields_injective (decodeFields_encode i) hfields, hwf⟩

/-! ### The opcode map (R64) and its reserved words (R65) -/

/-- A mask of R64 keeps a field whole or drops it. -/
theorem nibble_and_mask (x : Nibble) : x &&& 15 = x ∧ x &&& 0 = 0 := ⟨BitVec.and_allOnes, BitVec.and_zero⟩

/-- A nibble as a command word is its OP, with zero in the other fields. -/
theorem fields_setWidth (op : Nibble) :
    opField (op.setWidth 16) = op ∧ idxField (op.setWidth 16) = 0 ∧ nibField (op.setWidth 16) = 0 ∧
      rsvField (op.setWidth 16) = 0 := by
  revert op
  decide

/-- A mask and a match that fixes OP alone, field by field. -/
theorem and_eq_setWidth_iff (c m : CmdWord) (op : Nibble) :
    c &&& m = op.setWidth 16 ↔ opField c &&& opField m = op ∧ idxField c &&& idxField m = 0 ∧
      nibField c &&& nibField m = 0 ∧ rsvField c &&& rsvField m = 0 := by
  obtain ⟨hop, hidx, hnib, hrsv⟩ := fields_setWidth op
  rw [and_eq_iff_fields, hop, hidx, hnib, hrsv]

/-- The rows of DGET and DVAL: their mask leaves IDX free. -/
theorem and_FF0F_row_iff (c : CmdWord) (op i : Nibble) :
    (c &&& 0xFF0F = op.setWidth 16 ∧ i = idxField c) ↔
      rsvField c = 0 ∧ opField c = op ∧ nibField c = 0 ∧ i = idxField c := by
  have hmask : opField 0xFF0F = 15 ∧ idxField 0xFF0F = 0 ∧ nibField 0xFF0F = 15 ∧ rsvField 0xFF0F = 15 := by decide
  simp only [and_eq_setWidth_iff, hmask, nibble_and_mask, true_and]
  tauto

/-- The row of DSET: its mask leaves IDX and NIB free. -/
theorem and_F00F_row_iff (c : CmdWord) (op i n : Nibble) :
    (c &&& 0xF00F = op.setWidth 16 ∧ i = idxField c ∧ n = nibField c) ↔
      rsvField c = 0 ∧ opField c = op ∧ i = idxField c ∧ n = nibField c := by
  have hmask : opField 0xF00F = 15 ∧ idxField 0xF00F = 0 ∧ nibField 0xF00F = 0 ∧ rsvField 0xF00F = 15 := by decide
  simp only [and_eq_setWidth_iff, hmask, nibble_and_mask, true_and]
  tauto

/-- The rows of the format-W commands: their mask leaves no field free. -/
theorem and_FFFF_row_iff (c : CmdWord) (op : Nibble) :
    c &&& 0xFFFF = op.setWidth 16 ↔ rsvField c = 0 ∧ opField c = op ∧ nibField c = 0 ∧ idxField c = 0 := by
  have hmask : opField 0xFFFF = 15 ∧ idxField 0xFFFF = 15 ∧ nibField 0xFFFF = 15 ∧ rsvField 0xFFFF = 15 := by decide
  simp only [and_eq_setWidth_iff, hmask, nibble_and_mask]
  tauto

@[simp] theorem formatC_ne_reservedOpcode (c : CmdWord) (mk : Nibble → Nibble → Instr) :
    formatC c mk ≠ .error .reservedOpcode := by
  unfold formatC
  split <;> simp

@[simp] theorem formatCNoNib_ne_reservedOpcode (c : CmdWord) (mk : Nibble → Instr) :
    formatCNoNib c mk ≠ .error .reservedOpcode := by
  unfold formatCNoNib
  split
  · simp
  · split <;> simp

@[simp] theorem formatW_ne_reservedOpcode (c : CmdWord) (i : Instr) : formatW c i ≠ .error .reservedOpcode := by
  unfold formatW
  split
  · simp
  · split <;> simp

/-- The reserved opcodes are 0x0 and 0xA to 0xF (R65(a)): the format checks of the others answer otherwise. -/
theorem decodeFields_eq_reservedOpcode_iff (c : CmdWord) :
    decodeFields c = .error .reservedOpcode ↔ (opField c).toNat = 0 ∨ 10 ≤ (opField c).toNat := by
  refine ⟨fun h => ?_, decodeFields_reserved_opcode c⟩
  unfold decodeFields at h
  split at h
  -- The default arm is reached by none of the opcodes 1 to 9.
  case h_10 => grind
  all_goals simp at h

/-- Settles O3: the field checks accept the words of a row's mask and match. -/
theorem opcodeMapSelects : Obligations.OpcodeMapSelects := fun c =>
  ⟨fun i => (decodeFields_eq_ok c (.dget i)).trans (and_FF0F_row_iff c 1 i).symm,
    fun i n => (decodeFields_eq_ok c (.dset i n)).trans (and_F00F_row_iff c 2 i n).symm,
    fun i => (decodeFields_eq_ok c (.dval i)).trans (and_FF0F_row_iff c 3 i).symm,
    (decodeFields_eq_ok c .b2bcd).trans (and_FFFF_row_iff c 4).symm,
    (decodeFields_eq_ok c .bcd2b).trans (and_FFFF_row_iff c 5).symm,
    (decodeFields_eq_ok c .s2bcd).trans (and_FFFF_row_iff c 6).symm,
    (decodeFields_eq_ok c .bcd2s).trans (and_FFFF_row_iff c 7).symm,
    (decodeFields_eq_ok c .badd).trans (and_FFFF_row_iff c 8).symm,
    (decodeFields_eq_ok c .bmul).trans (and_FFFF_row_iff c 9).symm,
    decodeFields_eq_reservedOpcode_iff c⟩

/-! ### The index check (R66) -/

theorem encode_dget (i : Nibble) : encode (.dget i) = 0x0001 ||| i.setWidth 16 <<< 4 := by simp [encode, commandWord]

theorem encode_dval (i : Nibble) : encode (.dval i) = 0x0003 ||| i.setWidth 16 <<< 4 := by simp [encode, commandWord]

/-- The word of an instruction whose one check is that of the index i: refused from D on, decoded below D. -/
theorem decode_encode_of_index {w : Width} {i : Nibble} {j : Instr} (hj : wellFormed w j = indexInRange w i) :
    (w.digits ≤ i.toNat → decode w (encode j) = .error .indexRange) ∧
      (i.toNat < w.digits → decode w (encode j) = .ok j) := by
  refine ⟨fun h => decode_encode_of_ill_formed ?_, fun h => decode_encode ?_⟩
  · rw [hj]; exact decide_eq_false (Nat.not_lt.mpr h)
  · rw [hj]; exact decide_eq_true h

/-- Settles O5: the words are the encodings of the codec commands, which are well formed exactly below D. -/
theorem indexAtOrAboveDigitCountIsRefused : Obligations.IndexAtOrAboveDigitCountIsRefused := by
  refine ⟨fun w i n => ?_, by decide, by decide, by decide, by decide⟩
  obtain ⟨hget, hget'⟩ := decode_encode_of_index (w := w) (i := i) (j := .dget i) rfl
  obtain ⟨hset, hset'⟩ := decode_encode_of_index (w := w) (i := i) (j := .dset i n) rfl
  obtain ⟨hval, hval'⟩ := decode_encode_of_index (w := w) (i := i) (j := .dval i) rfl
  rw [encode_dget] at hget hget'
  rw [encode_dval] at hval hval'
  exact ⟨fun h => ⟨hget h, hset h, hval h⟩, fun h => ⟨hget' h, hset' h, hval' h⟩⟩

/-- Settles O6: the decoder evaluated on each word. -/
theorem documentedWordsDecode : Obligations.DocumentedWordsDecode := by
  unfold Obligations.DocumentedWordsDecode
  decide

end Sys2Proof

namespace Sys2Proof.Machine

/-! ### Reserved words at the step (R65) -/

theorem serve_of_refused {s : State} {q : Request} {r : Refusal} (h : step (s.present q) = .refused r) :
    serve s q = .next (s.present q).recordRefusal := by
  simp [serve, h]

/-- A request whose word the field checks refuse is refused for their reason. -/
theorem step_of_fields_error {s : State} {q : Request} {r : DecodeRefusal} (h : decodeFields q.cmd = .error r) :
    step (s.present q) = .refused (.ofDecode r) :=
  step_of_undecoded (State.present_request s q) (decode_of_fields_error _ h)

/-- Settles O4: the field checks refuse the word, and serving a refused request records the refusal. -/
theorem reservedWordsAreRefused : Obligations.ReservedWordsAreRefused := by
  intro s q op idx nibble rsv
  have opcode : (op = 0 ∨ 10 ≤ op) → step (s.present q) = .refused .reservedOpcode := fun h =>
    step_of_fields_error (decodeFields_reserved_opcode q.cmd h)
  have field : 1 ≤ op → op ≤ 9 →
      (rsv ≠ 0 ∨ ((op = 1 ∨ op = 3) ∧ nibble ≠ 0) ∨ (4 ≤ op ∧ (idx ≠ 0 ∨ nibble ≠ 0))) →
      step (s.present q) = .refused .reservedField := fun h1 h9 h =>
    step_of_fields_error (decodeFields_reserved_field q.cmd h1 h9 h)
  refine ⟨opcode, field, fun h => ⟨(s.present q).recordRefusal, ?_, rfl, rfl⟩⟩
  by_cases hop : op = 0 ∨ 10 ≤ op
  · exact serve_of_refused (opcode hop)
  · exact serve_of_refused (field (by omega) (by omega) (h.resolve_left hop))

/-! ### The requests of assembly lines (R69, R70) -/

section
variable {w : Width} {env : HostEnv} {a b : AsmOperand} {x y : Word}

theorem requestA_of_word (l : AsmLine) (ha : a.word w env = .ok x) : requestA w env l a = .ok (plainRequest l x 0) := by
  simp [requestA, ha]

theorem requestAB_of_words (l : AsmLine) (ha : a.word w env = .ok x) (hb : b.word w env = .ok y) :
    requestAB w env l a b = .ok (plainRequest l x y) := by
  simp [requestAB, ha, hb]

theorem requestBuf_of_word (l : AsmLine) {buf : Name} {m : Memory} (ha : a.word w env = .ok x)
    (hm : lookupName buf env.bufs = some m) (hsize : m.size < 2 ^ w.bits) :
    requestBuf w env l a buf = .ok { plainRequest l x (BitVec.ofNat 64 m.size) with obuf := m } := by
  simp [requestBuf, ha, hm, hsize]

end

/-- A number below 2^W is kept by the 64-bit carrier. -/
theorem toNat_ofNat_of_fits {w : Width} {n : Nat} (h : n < 2 ^ w.bits) : (BitVec.ofNat 64 n).toNat = n := by
  rw [BitVec.toNat_ofNat]
  exact Nat.mod_eq_of_lt (h.trans_le (Nat.pow_le_pow_right (by norm_num) w.bits_le))

/-- Settles O7: the request of each line, its command word the encoding of the line's instruction. -/
theorem assemblyLinesHaveTheirWords : Obligations.AssemblyLinesHaveTheirWords := by
  intro w env a b x y i n bs buf m ha hb hm hsize
  exact ⟨⟨_, requestA_of_word _ ha, encode_dget i, rfl⟩,
    ⟨_, requestA_of_word _ ha, rfl, rfl⟩,
    ⟨_, requestA_of_word _ ha, encode_dval i, rfl⟩,
    ⟨_, requestA_of_word _ ha, rfl, rfl⟩,
    ⟨_, requestA_of_word _ ha, rfl, rfl⟩,
    ⟨_, rfl, rfl, Memory.ofBytes_size bs, Memory.read_ofBytes bs⟩,
    ⟨_, requestBuf_of_word _ ha hm hsize, rfl, rfl, rfl, toNat_ofNat_of_fits hsize⟩,
    ⟨_, requestAB_of_words _ ha hb, rfl, rfl, rfl⟩,
    ⟨_, requestAB_of_words _ ha hb, rfl, rfl, rfl⟩⟩

/-! ### The responses of the pseudo-instructions (R70) -/

/-- A request that decodes is given the response its instruction's meaning answers. -/
theorem responseTo_of_exec {s : State} {q : Request} {i : Instr} {p : Response} {n : Nat}
    (hd : decode s.width q.cmd = .ok i) (h : exec i (s.present q) = .next ((s.present q).accept p n)) :
    responseTo s q = some p := by
  have hstep : step (s.present q) = .next ((s.present q).accept p n) :=
    (step_of_decoded (State.present_request s q) hd).trans h
  simp [responseTo, serve, hstep]

/-- The response to a BCD2B request: the decimal reading, and INVALID_DIGIT for an invalid word (R91). -/
theorem responseTo_bcd2b {s : State} {q : Request} (hd : decode s.width q.cmd = .ok .bcd2b) :
    responseTo s q =
      some (wordResponse q (BitVec.ofNat 64 (val s.width (s.opA q))) (invalidIf (!valid s.width (s.opA q)))) :=
  responseTo_of_exec hd (execBcd2b_of_request (State.present_request s q))

/-- The response to a BADD request of valid operands (R121). -/
theorem responseTo_badd {s : State} {q : Request} (hd : decode s.width q.cmd = .ok .badd)
    (ha : valid s.width (s.opA q) = true) (hb : valid s.width (s.opB q) = true) :
    responseTo s q =
      some (wordResponse q (pack s.width (val s.width (s.opA q) + val s.width (s.opB q)))
        (overflowIf (decide (s.width.limit ≤ val s.width (s.opA q) + val s.width (s.opB q))))) := by
  obtain ⟨hr, he⟩ := addResult_spec s.width _ _ ha hb
  rw [← hr, ← he]
  exact responseTo_of_exec hd ((bcdOp_of_request (State.present_request s q) _).trans (if_pos ⟨ha, hb⟩))

theorem invalidIf_not_eq_none_iff (c : Bool) : invalidIf (!c) = .none ↔ c = true := by cases c <;> decide

theorem requestA_eq_ok {w : Width} {env : HostEnv} {l : AsmLine} {a : AsmOperand} {q : Request}
    (h : requestA w env l a = .ok q) : ∃ x, q = plainRequest l x 0 := by
  unfold requestA at h
  split at h <;> cases h
  exact ⟨_, rfl⟩

theorem requestAB_eq_ok {w : Width} {env : HostEnv} {l : AsmLine} {a b : AsmOperand} {q : Request}
    (h : requestAB w env l a b = .ok q) : ∃ x y, b.word w env = .ok y ∧ q = plainRequest l x y := by
  unfold requestAB at h
  split at h <;> cases h
  exact ⟨_, _, ‹_›, rfl⟩

theorem one_lt_two_pow_bits (w : Width) : 1 < 2 ^ w.bits := by cases w <;> decide

/-- The literal 1 is the word 1 at every width. -/
theorem word_literal_one (w : Width) (env : HostEnv) : (AsmOperand.literal 1).word w env = .ok 1 :=
  if_pos (one_lt_two_pow_bits w)

theorem bvalid_request_cmd {w : Width} {env : HostEnv} {a : AsmOperand} {q : Request}
    (h : (AsmLine.bvalid a).request w env = .ok q) : q.cmd = encode .bcd2b := by
  obtain ⟨x, rfl⟩ := requestA_eq_ok h
  rfl

theorem binc_request_cmd_b {w : Width} {env : HostEnv} {a : AsmOperand} {q : Request}
    (h : (AsmLine.binc a).request w env = .ok q) : q.cmd = encode .badd ∧ q.b = 1 := by
  obtain ⟨x, y, hy, rfl⟩ := requestAB_eq_ok h
  rw [word_literal_one] at hy
  cases hy
  exact ⟨rfl, rfl⟩

theorem valid_one (w : Width) : valid w 1 = true := by cases w <;> decide

theorem val_one (w : Width) : val w 1 = 1 := by cases w <;> decide

/-- The response to a BADD request of a valid word and 1: the packing of one more than its reading (R121). -/
theorem responseTo_badd_one {s : State} {q : Request} (hd : decode s.width q.cmd = .ok .badd)
    (ha : valid s.width (s.opA q) = true) (hb : q.b = 1) :
    responseTo s q =
      some (wordResponse q (pack s.width (val s.width (s.opA q) + 1))
        (overflowIf (decide (s.width.limit ≤ val s.width (s.opA q) + 1)))) := by
  have hopB : s.opB q = 1 := by
    rw [State.opB, hb]
    exact trunc_eq_self s.width 1 (one_lt_two_pow_bits s.width)
  have hresp := responseTo_badd hd ha (by rw [hopB]; exact valid_one s.width)
  rwa [hopB, val_one] at hresp

/-- Settles O8: both expansions are by definition, and the answers are those of BCD2B and of BADD with the word 1. -/
theorem pseudoInstructionsExpand : Obligations.PseudoInstructionsExpand := by
  refine fun s env a => ⟨rfl, rfl, fun q hq => ?bvalid, fun q hq ha => ?binc⟩
  case bvalid =>
    have hd : decode s.width q.cmd = .ok .bcd2b := by rw [bvalid_request_cmd hq]; exact decode_encode rfl
    exact ⟨_, responseTo_bcd2b hd, invalidIf_not_eq_none_iff _, toNat_ofNat_val _ _⟩
  case binc =>
    obtain ⟨hcmd, hb⟩ := binc_request_cmd_b hq
    have hd : decode s.width q.cmd = .ok .badd := by rw [hcmd]; exact decode_encode rfl
    have hlt : val s.width (s.opA q) < s.width.limit := val_lt_limit ha
    refine ⟨_, responseTo_badd_one hd ha hb, fun hlast => ?_, fun hne => ⟨?_, ?_⟩⟩
    · rw [wordResponse_err, decide_eq_true (by omega)]; rfl
    · rw [wordResponse_err, decide_eq_false (by omega)]; rfl
    · rw [wordResponse_r, val_pack, Nat.mod_eq_of_lt (by omega)]

/-! ### The request statement of the host script (R71) -/

@[simp] theorem lookupName_bindName {α : Type} (v : Name) (x : α) (env : List (Name × α)) :
    lookupName v (bindName v x env) = some x := by
  simp [bindName, lookupName]

theorem hostStep_of_stmt {h : HostState} {l : ScriptLine} (hrun : h.halted = false)
    (hl : h.script[h.index]? = some l) : hostStep h = h.run l.stmt := by
  simp [hostStep, hrun, hl]

section
variable {h : HostState} {t : Name} {line : AsmLine} {q : Request} (hq : line.request h.core.width h.env = .ok q)
include hq

theorem issue_of_refused {r : Refusal} (hr : step (h.core.present q) = .refused r) : h.issue t line = .refused r := by
  simp [HostState.issue, hq, hr]

theorem issue_of_answered {c : State} {p : Response} (hc : step (h.core.present q) = .next c)
    (hp : c.response = some p) : h.issue t line = .next ({ h with core := c }.bindResponse t line p).advance := by
  simp [HostState.issue, hq, hc, State.readResponse, hp]

end

/-- A step that answers the request presented leaves a response. -/
theorem step_present_response {s c : State} {q : Request} (h : step (s.present q) = .next c) :
    ∃ p, c.response = some p := by
  rcases step_answers_or_refuses (State.present_request s q) with ⟨p, n, h'⟩ | ⟨r, h'⟩ <;> rw [h'] at h <;> cases h
  exact ⟨p, rfl⟩

/-- Settles O54: the core's one step decides the statement's outcome, and its answer is what is bound. -/
theorem scriptStatementIssuesOneRequest : Obligations.ScriptStatementIssuesOneRequest := by
  intro h lbl t line q hrun hl hq
  have hstep : hostStep h = h.issue t line := hostStep_of_stmt hrun hl
  refine ⟨fun r hr => hstep.trans (issue_of_refused hq hr), fun c hc => ?_⟩
  obtain ⟨p, hp⟩ := step_present_response hc
  exact ⟨_, p, hstep.trans (issue_of_answered hq hc hp), rfl, hp, lookupName_bindName t p _, rfl, rfl, hrun⟩

end Sys2Proof.Machine
end

section
/-! PROOFS. The Digit Codec (40_digit_codec.md): the words and the answers of DGET, DSET and DVAL (R80 to R83), and the laws
of the codec (R85). -/

namespace Sys2Proof

/-! ### The command words (30_encoding.md R64 to R66) -/

/-- A row of the opcode map whose instruction has the index i: its words decode below D, and are refused from D on. -/
theorem decode_of_indexed_row {w : Width} {c : CmdWord} {j : Instr} {i : Nibble} {row : Prop}
    (hrow : decodeFields c = .ok j ↔ row) (hj : wellFormed w j = indexInRange w i) :
    (decode w c = .ok j ↔ row ∧ i.toNat < w.digits) ∧
      (row → w.digits ≤ i.toNat → decode w c = .error .indexRange) := by
  refine ⟨?_, fun hr hi => decode_of_index w (hrow.mpr hr) ?_⟩
  · rw [decode_eq_ok, hrow, hj, indexInRange, decide_eq_true_eq]
  · rw [hj]
    exact decide_eq_false (Nat.not_lt.mpr hi)

/-- The words of a codec command without NIB, of opcode 1 or 3, from its row of the opcode map: those that decode, those
refused for NIB or RSV, and those refused for the index. -/
theorem decode_codec_without_nib (w : Width) {c : CmdWord} {op : Nibble} {mk : Nibble → Instr} (hop : op = 1 ∨ op = 3)
    (hwf : ∀ i, wellFormed w (mk i) = indexInRange w i)
    (hrow : ∀ i, decodeFields c = .ok (mk i) ↔ c &&& 0xFF0F = op.setWidth 16 ∧ i = idxField c) :
    (∀ i, decode w c = .ok (mk i) ↔ c &&& 0xFF0F = op.setWidth 16 ∧ i = idxField c ∧ i.toNat < w.digits) ∧
      (opField c = op → (nibField c ≠ 0 ∨ rsvField c ≠ 0) → decode w c = .error .reservedField) ∧
      (c &&& 0xFF0F = op.setWidth 16 → w.digits ≤ (idxField c).toNat → decode w c = .error .indexRange) := by
  have hindexed := fun i => decode_of_indexed_row (hrow i) (hwf i)
  refine ⟨fun i => (hindexed i).1.trans and_assoc, fun hc h => ?_, fun hm => (hindexed _).2 ⟨hm, rfl⟩⟩
  have hop' : (opField c).toNat = 1 ∨ (opField c).toNat = 3 := by
    rw [hc]
    exact hop.imp (congrArg BitVec.toNat) (congrArg BitVec.toNat)
  exact decode_of_fields_error w (decodeFields_reserved_field c (by omega) (by omega)
    (h.elim (fun hnib => .inr (.inl ⟨hop', hnib⟩)) .inl))

end Sys2Proof

namespace Sys2Proof.Machine

/-! ### The answers (R80) -/

theorem opA_fits (s : State) (q : Request) : wordFits s.width (s.opA q) := trunc_lt _ _

section
variable {s : State} {q : Request} (hq : s.request = some q) {i : Nibble}
include hq

theorem codecOp_of_lt (f : Word → Word) (hi : i.toNat < s.width.digits) :
    codecOp i f s = .next (s.accept (wordResponse q (f (s.opA q)) .none) 0) := by
  rw [codecOp_of_request hq, if_pos hi]

theorem codecOp_of_ge (f : Word → Word) (hi : s.width.digits ≤ i.toNat) : codecOp i f s = .refused .indexRange := by
  rw [codecOp_of_request hq, if_neg (Nat.not_lt.mpr hi)]

/-- An instruction that is the shared operation answers its function of A, with NONE, AUX 0 and OBUF as supplied. -/
theorem answers_of_codecOp {j : Instr} {f : Word → Word} (hj : exec j = codecOp i f) (hi : i.toNat < s.width.digits) :
    Answers s j (wordResponse q (f (s.opA q)) .none) :=
  ⟨_, by rw [hj, codecOp_of_lt hq f hi], rfl⟩

theorem index_lt_of_codecOp_next {f : Word → Word} {t : State} (h : codecOp i f s = .next t) :
    i.toNat < s.width.digits := by
  by_contra hi
  rw [codecOp_of_ge hq f (Nat.not_lt.mp hi)] at h
  cases h

end

theorem exec_dget (i : Nibble) : exec (.dget i) = codecOp i fun a => (nib a i.toNat).setWidth 64 := rfl

theorem exec_dset (i n : Nibble) : exec (.dset i n) = codecOp i fun a => setNib a i.toNat n := rfl

theorem exec_dval (i : Nibble) : exec (.dval i) = codecOp i fun a => if digitOk (nib a i.toNat) then 1 else 0 := rfl

/-- Each codec command is the shared operation of R80, at the index that its well-formedness checks. -/
theorem exec_eq_codecOp {j : Instr} (h : ∃ k n, j = .dget k ∨ j = .dset k n ∨ j = .dval k) :
    ∃ i f, exec j = codecOp i f ∧ ∀ w, wellFormed w j = indexInRange w i := by
  obtain ⟨k, n, rfl | rfl | rfl⟩ := h
  · exact ⟨k, _, exec_dget k, fun _ => rfl⟩
  · exact ⟨k, _, exec_dset k n, fun _ => rfl⟩
  · exact ⟨k, _, exec_dval k, fun _ => rfl⟩

/-- Settles O31: what the shared operation answers is a function of A, and so it answers alike wherever A and W are. -/
theorem codecNeverSignalsAnError : Obligations.CodecNeverSignalsAnError := by
  rintro s s' q q' j p hj hq hq' hw hA ⟨t, ht, hp⟩
  obtain ⟨i, f, hexec, hwf⟩ := exec_eq_codecOp hj
  rw [hexec] at ht
  have hi : i.toNat < s.width.digits := index_lt_of_codecOp_next hq ht
  rw [codecOp_of_lt hq f hi] at ht
  obtain ⟨rfl, -⟩ := accept_answer ht hp
  exact ⟨(hwf _).trans (decide_eq_true hi), rfl, rfl, rfl, _, answers_of_codecOp hq' hexec (hw ▸ hi),
    congrArg f hA.symm⟩

/-! ### DGET, DSET and DVAL (R81 to R83) -/

theorem toNat_nib_setWidth (x : Word) (i : Nat) : ((nib x i).setWidth 64).toNat = (nib x i).toNat :=
  BitVec.toNat_setWidth_of_le (by norm_num)

/-- Settles O28: the row of DGET with the index check, and the raw nibble as a base-16 digit of A. -/
theorem dgetReturnsTheRawNibble : Obligations.DgetReturnsTheRawNibble := by
  refine ⟨fun w c => ?_, fun s q i hq => ?_⟩
  · obtain ⟨hget, -⟩ := opcodeMapSelects c
    exact decode_codec_without_nib w (.inl rfl) (fun _ => rfl) hget
  · rw [exec_dget]
    refine ⟨fun hi => ⟨_, ?_, answers_of_codecOp hq (exec_dget i) hi⟩, codecOp_of_ge hq _⟩
    rw [toNat_nib_setWidth, nib_toNat]

/-- Settles O29: the row of DSET with the index check, and what a nibble write leaves of A. -/
theorem dsetReplacesOneNibble : Obligations.DsetReplacesOneNibble := by
  refine ⟨fun w c => ?_, fun s q i n hq => ?_⟩
  · obtain ⟨-, hset, -⟩ := opcodeMapSelects c
    have hindexed := fun i n => decode_of_indexed_row (w := w) (hset i n) rfl
    refine ⟨fun i n => (hindexed i n).1.trans (by simp only [and_assoc]), fun hop hrsv => ?_,
      fun h => (hindexed _ _).2 ⟨h, rfl, rfl⟩⟩
    have hop' : (opField c).toNat = 2 := congrArg BitVec.toNat hop
    exact decode_of_fields_error w (decodeFields_reserved_field c (by omega) (by omega) (.inl hrsv))
  · rw [exec_dset]
    refine ⟨fun hi => ⟨_, setNib_lt _ _ _ n (opA_fits s q) hi, fun j _ => ?_,
      answers_of_codecOp hq (exec_dset i n) hi⟩, codecOp_of_ge hq _⟩
    rw [← nib_toNat, nib_setNib _ _ _ _ i.isLt, ← nib_toNat, apply_ite BitVec.toNat]

/-- Settles O30: the row of DVAL with the index check, and the verdict on a base-16 digit of A. -/
theorem dvalTellsWhetherTheNibbleIsADigit : Obligations.DvalTellsWhetherTheNibbleIsADigit := by
  refine ⟨fun w c => ?_, fun s q i hq => ?_⟩
  · obtain ⟨-, -, hval, -⟩ := opcodeMapSelects c
    exact decode_codec_without_nib w (.inr rfl) (fun _ => rfl) hval
  · rw [exec_dval]
    refine ⟨fun hi => ⟨_, ?_, answers_of_codecOp hq (exec_dval i) hi⟩, codecOp_of_ge hq _⟩
    simp only [digitOk, decide_eq_true_eq, nib_toNat]

/-! ### Nibble writes (R84, R85) -/

section
variable (x : Word) {i j : Nat} (n m : Nibble)

theorem nib_setNib_same (hi : i < 16) : nib (setNib x i n) i = n := by rw [nib_setNib x i i n hi, if_pos rfl]

theorem nib_setNib_of_ne (hi : i < 16) (h : j ≠ i) : nib (setNib x i n) j = nib x j := by
  rw [nib_setNib x i j n hi, if_neg h]

theorem setNib_nib (hi : i < 16) : setNib x i (nib x i) = x := by
  refine word_ext fun k _ => ?_
  by_cases hk : k = i
  · rw [hk, nib_setNib_same _ _ hi]
  · rw [nib_setNib_of_ne _ _ hi hk]

theorem setNib_setNib_same (hi : i < 16) : setNib (setNib x i n) i m = setNib x i m := by
  refine word_ext fun k _ => ?_
  by_cases hk : k = i
  · rw [hk, nib_setNib_same _ _ hi, nib_setNib_same _ _ hi]
  · simp only [nib_setNib_of_ne _ _ hi hk]

theorem setNib_comm (hi : i < 16) (hj : j < 16) (h : i ≠ j) :
    setNib (setNib x i n) j m = setNib (setNib x j m) i n := by
  refine word_ext fun k _ => ?_
  simp only [nib_setNib _ _ _ _ hi, nib_setNib _ _ _ _ hj]
  by_cases hk : k = i
  · rw [if_neg (hk ▸ h), if_pos hk, if_pos hk]
  · rw [if_neg hk, if_neg hk]

end

/-! ### The laws of the codec (R85) -/

section
variable {w : Width} {j : Instr} {i : Nibble} {f : Word → Word} {a : Word} (hj : exec j = codecOp i f)
  (ha : wordFits w a) (hi : i.toNat < w.digits) (b : Word)
include hj ha hi

/-- The response of a codec command to a W-bit word, its index below D. -/
theorem resultOf_of_codecOp :
    resultOf w j a b = some (wordResponse { Request.plain (encode j) with a := a, b := b } (f a) .none) := by
  have hA : ((State.resetAt w).present { Request.plain (encode j) with a := a, b := b }).opA
      { Request.plain (encode j) with a := a, b := b } = a := trunc_eq_self w a ha
  rw [resultOf, hj, codecOp_of_lt (State.present_request _ _) f hi, hA]
  rfl

theorem result_word_of_codecOp : (resultOf w j a b).map (·.r) = some (f a) := by
  rw [resultOf_of_codecOp hj ha hi b]
  rfl

end

/-- Validity, with the digit indices taken as the nibbles below D that CMD.IDX can hold (R27, R85(g)). -/
theorem valid_iff_forall_index (w : Width) (a : Word) :
    valid w a = true ↔ ∀ k : Nibble, k.toNat < w.digits → (nib a k.toNat).toNat ≤ 9 := by
  rw [valid_iff]
  refine ⟨fun h k => h k.toNat, fun h i hi => ?_⟩
  have hk : (BitVec.ofNat 4 i).toNat = i := Nat.mod_eq_of_lt (hi.trans_le w.digits_le)
  simpa only [hk] using h (BitVec.ofNat 4 i) (by rwa [hk])

/-- DVAL's word is 1 exactly on a digit (R83). -/
theorem verdict_eq_one_iff (d : Nibble) : (if digitOk d then (1 : Word) else 0) = 1 ↔ d.toNat ≤ 9 := by
  simp [digitOk]

/-- Settles O32: the results are those of the nibble functions, whose laws they then are. -/
theorem codecLaws : Obligations.CodecLaws := by
  intro w a i j n m ha hi hj hij
  have hij' : i.toNat ≠ j.toNat := fun h => hij (BitVec.eq_of_toNat_eq h)
  have hx : wordFits w (setNib a i.toNat n) := setNib_lt w a _ n ha hi
  have hy : wordFits w (setNib a j.toNat m) := setNib_lt w a _ m ha hj
  refine ⟨_, _, _, _, _, _, _, resultOf_of_codecOp (exec_dget i) ha hi 0, resultOf_of_codecOp (exec_dget j) ha hj 0,
    resultOf_of_codecOp (exec_dset i n) ha hi 0, resultOf_of_codecOp (exec_dset j m) ha hj 0,
    resultOf_of_codecOp (exec_dset i m) ha hi 0, resultOf_of_codecOp (exec_dset j m) hx hj 0,
    resultOf_of_codecOp (exec_dval i) ha hi 0,
    (result_word_of_codecOp (exec_dget i) hx hi 0).trans ?getSet,
    (result_word_of_codecOp (exec_dget j) hx hj 0).trans ?getSetOther,
    (result_word_of_codecOp (exec_dset i _) ha hi 0).trans ?setGet,
    (result_word_of_codecOp (exec_dset i m) hx hi 0).trans ?setSet,
    (result_word_of_codecOp (exec_dset i n) hy hi 0).trans ?setsCommute, ?verdict, ?validity⟩
  case getSet => rw [nib_setNib_same _ _ i.isLt]
  case getSetOther => rw [nib_setNib_of_ne _ _ i.isLt hij'.symm, wordResponse_r]
  case setGet =>
    rw [wordResponse_r, BitVec.setWidth_setWidth_of_le _ (by norm_num), BitVec.setWidth_eq, setNib_nib _ i.isLt]
  case setSet => rw [setNib_setNib_same _ _ _ i.isLt, wordResponse_r]
  case setsCommute => rw [wordResponse_r, setNib_comm _ _ _ i.isLt j.isLt hij']
  case verdict => rw [wordResponse_r, wordResponse_r, toNat_nib_setWidth, verdict_eq_one_iff]
  case validity =>
    rw [valid_iff_forall_index]
    refine forall₂_congr fun k hk => ?_
    rw [result_word_of_codecOp (exec_dval k) ha hk 0, Option.some_inj, verdict_eq_one_iff]

end Sys2Proof.Machine
end

section
/-! PROOFS. The Binary-BCD Converter (41_binary_bcd.md): the words and the answers of B2BCD and BCD2B (R90, R91), their
round trip (R92) and the overflow boundary (R93). -/

namespace Sys2Proof

/-! ### The one word of a format-W command (30_encoding.md R62, R65) -/

/-- A command word whose IDX, NIB and RSV are zero has zero in CMD[15:4] (R61). -/
theorem high_bits_eq_zero_of_fields {c : CmdWord} (hidx : idxField c = 0) (hnib : nibField c = 0)
    (hrsv : rsvField c = 0) : c.extractLsb' 4 12 = 0 := by
  obtain ⟨hop', hidx', hnib', hrsv'⟩ := fields_setWidth (opField c)
  have hc : c = (opField c).setWidth 16 :=
    cmdWord_ext hop'.symm (hidx.trans hidx'.symm) (hnib.trans hnib'.symm) (hrsv.trans hrsv'.symm)
  have hzero : ∀ op : Nibble, (op.setWidth 16).extractLsb' 4 12 = 0 := by decide
  rw [hc, hzero]

end Sys2Proof

namespace Sys2Proof.Machine

/-- An instruction of the opcodes 4 to 9 has its own encoding as its one word: the fields that are not OP stay zero. -/
theorem hasOneWord_encode {i : Instr} (hwf : ∀ w, wellFormed w i = true) (h4 : 4 ≤ (opField (encode i)).toNat)
    (h9 : (opField (encode i)).toNat ≤ 9) : HasOneWord i (encode i) := by
  refine fun w c => ⟨⟨fun h => ?own, ?encoded⟩, fun hop hne => ?reserved⟩
  case own => exact (decodedWordsAreEncodings w c i h).1.symm
  case encoded => rintro rfl; exact decode_encode (hwf w)
  case reserved =>
    rw [← hop] at h4 h9
    refine decode_of_fields_error w (decodeFields_reserved_field c (by omega) h9 ?_)
    by_contra hfields
    push Not at hfields
    obtain ⟨hrsv, -, hidx⟩ := hfields
    obtain ⟨hidx, hnib⟩ := hidx h4
    exact hne (high_bits_eq_zero_of_fields hidx hnib hrsv)

/-! ### The answers of B2BCD (R90) and BCD2B (R91) -/

section
variable {s : State} {q : Request} (hq : s.request = some q)
include hq

theorem answers_b2bcd_of_limit_le (h : s.width.limit ≤ (s.opA q).toNat) :
    Answers s .b2bcd (wordResponse q s.drawWord .overflow) :=
  ⟨_, (execB2bcd_of_request hq).trans (if_pos h), rfl⟩

theorem answers_b2bcd_of_lt_limit (h : (s.opA q).toNat < s.width.limit) :
    Answers s .b2bcd (wordResponse q (pack s.width (s.opA q).toNat) .none) :=
  ⟨_, (execB2bcd_of_request hq).trans (if_neg (Nat.not_le.mpr h)), rfl⟩

theorem answers_bcd2b :
    Answers s .bcd2b (wordResponse q (BitVec.ofNat 64 (val s.width (s.opA q))) (invalidIf (!valid s.width (s.opA q)))) :=
  ⟨_, execBcd2b_of_request hq, rfl⟩

end

/-- Settles O33: below the limit the answer is `pack` of A, whose nibbles are A's decimal digits. -/
theorem binaryToBcdPacksTheDigits : Obligations.BinaryToBcdPacksTheDigits := by
  refine ⟨hasOneWord_encode (i := .b2bcd) (fun _ => rfl) (by decide) (by decide),
    fun s q hq => ⟨fun h => ?_, fun h => ?_⟩⟩
  · exact ⟨_, drawWord_lt s, answers_b2bcd_of_limit_le hq h⟩
  · refine ⟨_, pack_lt s.width _, fun j hj => ?_, answers_b2bcd_of_lt_limit hq h⟩
    rw [← nib_toNat, nib_pack_toNat _ _ _ hj]

theorem invalidIf_eq_invalidDigit_iff (c : Bool) : invalidIf c = .invalidDigit ↔ c = true := by cases c <;> decide

theorem invalidIf_ne_overflow (c : Bool) : invalidIf c ≠ .overflow := by cases c <;> decide

/-- A word is invalid where one of its D base-16 digits exceeds 9 (10_state.md R27). -/
theorem not_valid_iff (w : Width) (x : Word) :
    (!valid w x) = true ↔ ∃ i, i < w.digits ∧ 9 < x.toNat / 16 ^ i % 16 := by
  obtain ⟨-, hvalid⟩ := validityIsPerNibble w x
  rw [Bool.not_eq_true', ← Bool.not_eq_true, hvalid]
  push Not
  rfl

/-- Settles O34: the answer is the decimal reading of A, which is the place-value sum and loses nothing as a word. -/
theorem bcdToBinaryAccumulatesTheNibbles : Obligations.BcdToBinaryAccumulatesTheNibbles := by
  refine ⟨hasOneWord_encode (i := .bcd2b) (fun _ => rfl) (by decide) (by decide),
    fun s q hq => ⟨_, _, ?_, ?_, invalidIf_ne_overflow _, answers_bcd2b hq⟩⟩
  · rw [toNat_ofNat_val]
    exact (decimalReadingIsThePlaceValueSum _ _).1
  · rw [invalidIf_eq_invalidDigit_iff, not_valid_iff]

/-! ### Results on operand words alone -/

/-- The request of an instruction on operand words alone, as `resultOf` presents it. -/
def operandRequest (i : Instr) (a b : Word) : Request := { Request.plain (encode i) with a := a, b := b }

/-- What an instruction answers to operand words alone is its result on them. -/
theorem resultOf_of_answers {w : Width} {i : Instr} {a b : Word} {p : Response}
    (h : Answers ((State.resetAt w).present (operandRequest i a b)) i p) : resultOf w i a b = some p := by
  obtain ⟨t, hexec, hp⟩ := h
  rw [operandRequest] at hexec
  rw [resultOf, hexec]
  exact hp

section
variable {w : Width} {a : Word} (ha : wordFits w a) (b : Word)
include ha

/-- A W-bit operand A is read as it is. -/
theorem opA_operandRequest (i : Instr) :
    ((State.resetAt w).present (operandRequest i a b)).opA (operandRequest i a b) = a := trunc_eq_self w a ha

/-- The error signal of B2BCD from 10^D on (R90). -/
theorem err_resultOf_b2bcd_of_limit_le (h : w.limit ≤ a.toNat) :
    (resultOf w .b2bcd a b).map (·.err) = some .overflow := by
  have hA := opA_operandRequest ha b .b2bcd
  exact congrArg (Option.map (·.err)) (resultOf_of_answers (answers_b2bcd_of_limit_le rfl (hA.symm ▸ h)))

/-- The result of BCD2B (R91). -/
theorem resultOf_bcd2b :
    resultOf w .bcd2b a b =
      some (wordResponse (operandRequest .bcd2b a b) (BitVec.ofNat 64 (val w a)) (invalidIf (!valid w a))) := by
  have h := resultOf_of_answers (answers_bcd2b (State.present_request (State.resetAt w) (operandRequest .bcd2b a b)))
  rwa [opA_operandRequest ha b] at h

end

/-- The result of B2BCD below 10^D (R90). -/
theorem resultOf_b2bcd_of_lt_limit {w : Width} {a : Word} (h : a.toNat < w.limit) (b : Word) :
    resultOf w .b2bcd a b = some (wordResponse (operandRequest .b2bcd a b) (pack w a.toNat) .none) := by
  have hA := opA_operandRequest (h.trans w.limit_lt) b .b2bcd
  have hres := resultOf_of_answers
    (answers_b2bcd_of_lt_limit (State.present_request (State.resetAt w) (operandRequest .b2bcd a b)) (hA.symm ▸ h))
  rwa [hA] at hres

/-! ### The round trip (R92) and the boundary (R93) -/

/-- Settles O35: the two results are `pack` and `val`, which undo each other (10_state.md R29). -/
theorem conversionsRoundTrip : Obligations.ConversionsRoundTrip := by
  refine fun w => ⟨fun v hv => ?fromBinary, fun b hb hvalid => ?fromBcd⟩
  case fromBinary =>
    have hword : (BitVec.ofNat 64 v).toNat = v := toNat_ofNat_of_fits (hv.trans w.limit_lt)
    refine ⟨_, _, resultOf_b2bcd_of_lt_limit (hword.symm ▸ hv) 0, rfl, resultOf_bcd2b (pack_lt w _) 0,
      (invalidIf_not_eq_none_iff _).mpr (pack_valid w _), ?_⟩
    rw [wordResponse_r, toNat_ofNat_val, val_pack, hword, Nat.mod_eq_of_lt hv]
  case fromBcd =>
    have hlt : (BitVec.ofNat 64 (val w b)).toNat < w.limit := by
      rw [toNat_ofNat_val]
      exact val_lt_limit hvalid
    refine ⟨_, _, resultOf_bcd2b hb 0, (invalidIf_not_eq_none_iff _).mpr hvalid, hlt,
      resultOf_b2bcd_of_lt_limit hlt 0, rfl, ?_⟩
    rw [wordResponse_r, toNat_ofNat_val, pack_val hb hvalid]

/-- Settles O36: 10^D is below 2^W, so both inputs are words that B2BCD reads whole. -/
theorem binaryToBcdOverflowsAtTheLimit : Obligations.BinaryToBcdOverflowsAtTheLimit := by
  intro w
  have hlimit : (BitVec.ofNat 64 w.limit).toNat = w.limit := toNat_ofNat_of_fits w.limit_lt
  have hlast : w.limit - 1 < w.limit := Nat.sub_one_lt (Nat.pow_pos (by norm_num)).ne'
  have hword : (BitVec.ofNat 64 (w.limit - 1)).toNat = w.limit - 1 := toNat_ofNat_of_fits (hlast.trans w.limit_lt)
  refine ⟨Nat.le_sub_one_of_lt w.limit_lt, ?overflow, ?last⟩
  case overflow => exact err_resultOf_b2bcd_of_limit_le (hlimit.trans_lt w.limit_lt) 0 hlimit.ge
  case last => exact congrArg (Option.map (·.err)) (resultOf_b2bcd_of_lt_limit (hword.trans_lt hlast) 0)

end Sys2Proof.Machine
end

section
/-! PROOFS. The Text Converter (42_text.md): the significant digits (R103), the answers of S2BCD and BCD2S (R101, R104),
the nibble form of the accumulation (R102), the written text (R105) and the round trip (R106). -/

namespace Sys2Proof.Machine

/-! ### The significant digits (R103) -/

/-- A nonzero nibble below D is a significant one. -/
theorem lt_sig_of_nib_ne_zero {w : Width} {x : Word} {i : Nat} (hi : i < w.digits) (h : nib x i ≠ 0) : i < sig w x := by
  by_contra hge
  exact h (nib_above_sig w x i (Nat.not_lt.mp hge) hi)

theorem sig_eq_one {w : Width} {x : Word} (h : ∀ i, i < w.digits → nib x i = 0) : sig w x = 1 := by
  obtain ⟨hpos, hle⟩ := sig_bounds w x
  rcases sig_head w x with hne | ⟨hone, -⟩
  · exact absurd (h _ (by omega)) hne
  · exact hone

theorem sig_eq_succ {w : Width} {x : Word} {k : Nat} (hk : k < w.digits) (hne : nib x k ≠ 0)
    (h : ∀ i, k < i → i < w.digits → nib x i = 0) : sig w x = k + 1 := by
  obtain ⟨-, hle⟩ := sig_bounds w x
  have hlt := lt_sig_of_nib_ne_zero hk hne
  rcases sig_head w x with htop | ⟨-, hzero⟩
  · by_contra hsig
    exact htop (h _ (by omega) (by omega))
  · exact absurd (hzero k hk) hne

/-- The digits of an invalid word that are no decimal digits are among its significant ones. -/
theorem exists_invalid_lt_sig_iff (w : Width) (x : Word) :
    (∃ i, i < sig w x ∧ 9 < (nib x i).toNat) ↔ valid w x = false := by
  obtain ⟨-, hle⟩ := sig_bounds w x
  rw [← Bool.not_eq_true', not_valid_iff]
  simp only [← nib_toNat]
  constructor
  · rintro ⟨i, hi, h9⟩
    exact ⟨i, hi.trans_le hle, h9⟩
  · rintro ⟨i, hi, h9⟩
    refine ⟨i, lt_sig_of_nib_ne_zero hi fun h0 => ?_, h9⟩
    rw [h0] at h9
    exact absurd h9 (by decide)

/-- Settles O27: the top significant nibble is nonzero unless all are zero, and no nonzero nibble stands above it. -/
theorem significantDigitsEndAtTheTopNonzeroNibble : Obligations.SignificantDigitsEndAtTheTopNonzeroNibble :=
  fun w x => ⟨sig_eq_one, fun _ => sig_eq_succ, (sig_bounds w x).1, (sig_bounds w x).2, exists_invalid_lt_sig_iff w x⟩

/-- The leading significant nibble is zero only where the word reads 0 (R103, R105). -/
theorem nib_sig_sub_one_eq_zero_iff (w : Width) (x : Word) : nib x (sig w x - 1) = 0 ↔ val w x = 0 := by
  obtain ⟨hpos, -⟩ := sig_bounds w x
  constructor
  · intro h
    obtain ⟨-, hzero⟩ := (sig_head w x).resolve_left (not_not_intro h)
    rw [val_eq, digitSum]
    exact Finset.sum_eq_zero fun i hi => by simp [hzero i (Finset.mem_range.mp hi)]
  · intro h
    rw [← digitSum_sig, ← Nat.sub_add_cancel hpos, digitSum_succ] at h
    apply BitVec.eq_of_toNat_eq
    simpa using (Nat.add_eq_zero_iff.mp h).2

/-! ### The answers of S2BCD (R101) -/

theorem isDigitByte_iff (c : Byte) : isDigitByte c = true ↔ 0x30 ≤ c.toNat ∧ c.toNat ≤ 0x39 := by simp [isDigitByte]

/-- The response of an instruction is determined by the state. -/
theorem Answers.unique {s : State} {i : Instr} {p p' : Response} (h : Answers s i p) (h' : Answers s i p') : p = p' := by
  obtain ⟨t, hexec, hp⟩ := h
  obtain ⟨t', hexec', hp'⟩ := h'
  cases hexec.symm.trans hexec'
  exact Option.some.inj (hp.symm.trans hp')

section
variable {s : State} {q : Request} (hq : s.request = some q)
include hq

theorem answers_s2bcd_of_limit_le (h : s.width.limit ≤ textValue 0 (digitRun q.ibuf)) :
    Answers s .s2bcd { r := s.drawWord, err := .overflow, aux := (digitRun q.ibuf).length, obuf := q.obuf } :=
  ⟨_, (execS2bcd_of_request hq).trans (if_pos h), rfl⟩

theorem answers_s2bcd_of_lt_limit (h : textValue 0 (digitRun q.ibuf) < s.width.limit) :
    Answers s .s2bcd
      { r := pack s.width (textValue 0 (digitRun q.ibuf)), err := .none, aux := (digitRun q.ibuf).length, obuf := q.obuf } :=
  ⟨_, (execS2bcd_of_request hq).trans (if_neg (Nat.not_le.mpr h)), rfl⟩

end

/-- Settles O37: the run is `digitRun`, and its value decides between a drawn word and the packing. -/
theorem textToBcdReadsTheMaximalRun : Obligations.TextToBcdReadsTheMaximalRun := by
  refine ⟨hasOneWord_encode (i := .s2bcd) (fun _ => rfl) (by decide) (by decide), fun s q hq => ?_⟩
  obtain ⟨hlen, hread, hdigits, hstop⟩ := digitRun_spec q.ibuf
  refine ⟨digitRun q.ibuf, hlen, hread, fun c hc => (isDigitByte_iff c).mp (hdigits c hc), fun c hc => ?maximal,
    fun h => ⟨_, drawWord_lt s, answers_s2bcd_of_limit_le hq h⟩,
    fun h => ⟨_, pack_lt _ _, fun j hj => ?digits, answers_s2bcd_of_lt_limit hq h⟩⟩
  case maximal => rw [← isDigitByte_iff, hstop c hc]; decide
  case digits => rw [← nib_toNat, nib_pack_toNat _ _ _ hj]

/-! ### The nibble form of the accumulation (R102) -/

theorem nib_or (x y : Word) (j : Nat) : nib (x ||| y) j = nib x j ||| nib y j := by
  ext k hk
  simp [nib]

theorem nib_trunc {w : Width} {j : Nat} (x : Word) (hj : j < w.digits) : nib (Word.trunc w.bits x) j = nib x j := by
  have hsplit : 16 ^ w.digits = 16 ^ j * (16 * 16 ^ (w.digits - (j + 1))) := by
    rw [← pow_succ', ← pow_add]
    congr 1
    omega
  apply BitVec.eq_of_toNat_eq
  rw [nib_toNat, nib_toNat, trunc_toNat, w.two_pow_bits, hsplit, Nat.mod_mul_right_div_self,
    Nat.mod_mod_of_dvd _ (Nat.dvd_mul_right _ _)]

/-- A shift by four bits moves every nibble up by one. -/
theorem nib_shiftLeft_four (x : Word) {j : Nat} (hj : j < 16) :
    nib (x <<< 4) j = if j = 0 then 0 else nib x (j - 1) := by
  ext k hk
  rw [nib, BitVec.getElem_extractLsb', BitVec.getLsbD_shiftLeft]
  split
  · subst j
    simp [hk]
  · rw [nib, BitVec.getElem_extractLsb', show 4 * j + k - 4 = 4 * (j - 1) + k by omega]
    simp [show 4 * j + k < 64 by omega, show ¬ 4 * j + k < 4 by omega]

theorem nib_ofNat_of_lt {d : Nat} (hd : d < 16) (j : Nat) :
    nib (BitVec.ofNat 64 d) j = if j = 0 then digitNibble d else 0 := by
  have hword : (BitVec.ofNat 64 d).toNat = d := Nat.mod_eq_of_lt (by omega)
  apply BitVec.eq_of_toNat_eq
  rw [nib_toNat, hword]
  split
  · subst j
    rw [digitNibble_toNat d hd]
    omega
  · rw [Nat.div_eq_of_lt (hd.trans_le (Nat.le_self_pow ‹_› 16))]
    rfl

/-- One digit shifted into a packing appends it to the number, at the width's D digits. -/
theorem shiftIn_pack (w : Width) (v : Nat) {d : Nat} (hd : d ≤ 9) :
    Word.trunc w.bits (pack w v <<< 4) ||| BitVec.ofNat 64 d = pack w (v * 10 + d) := by
  have hD := w.digits_le
  have hword : wordFits w (BitVec.ofNat 64 d) := wordFits_of_lt (by rw [BitVec.toNat_ofNat]; omega)
  refine word_ext_width w (by rw [BitVec.toNat_or]; exact Nat.or_lt_two_pow (trunc_lt _ _) hword) (pack_lt _ _)
    fun j hj => ?_
  rw [nib_or, nib_trunc _ hj, nib_shiftLeft_four _ (by omega), nib_ofNat_of_lt (by omega), nib_pack w (_ * 10 + _),
    if_pos hj]
  cases j with
  | zero => simp [Nat.mod_eq_of_lt (show d < 10 by omega)]
  | succ j =>
    have hdiv : (v * 10 + d) / 10 ^ (j + 1) = v / 10 ^ j := by
      rw [pow_succ', ← Nat.div_div_eq_div_mul]
      congr 1
      omega
    simp [nib_pack, hdiv, show j < w.digits by omega]

/-- The top nibble of a packed number below 10^D leaves the word as a nonzero digit where one more digit overflows. -/
theorem top_nib_pack_ne_zero_iff {w : Width} {v d : Nat} (hv : v < w.limit) (hd : d ≤ 9) :
    nib (pack w v) (w.digits - 1) ≠ 0 ↔ w.limit ≤ v * 10 + d := by
  have hD := w.digits_pos
  have hlimit : w.limit = 10 ^ (w.digits - 1) * 10 := by rw [Width.limit, ← pow_succ, Nat.sub_add_cancel hD]
  have hsmall : v / 10 ^ (w.digits - 1) < 10 := Nat.div_lt_of_lt_mul (hlimit ▸ hv)
  rw [Ne, ← BitVec.toNat_inj, nib_pack_toNat _ _ _ (by omega), Nat.mod_eq_of_lt hsmall]
  change ¬ v / 10 ^ (w.digits - 1) = 0 ↔ _
  rw [Nat.div_eq_zero_iff_lt (by positivity), hlimit]
  omega

/-- The invariant of the nibble form: the word packs the value read so far, and a digit is lost once that is 10^D or more. -/
theorem shiftAdd_pack (w : Width) {ds : List Nat} (hds : ∀ d ∈ ds, d ≤ 9) (v : Nat) :
    shiftAdd w ds (pack w v) (decide (w.limit ≤ v)) =
      (pack w (ds.foldl (fun v d => v * 10 + d) v), decide (w.limit ≤ ds.foldl (fun v d => v * 10 + d) v)) := by
  induction ds generalizing v with
  | nil => rfl
  | cons d ds ih =>
    obtain ⟨hd, hds⟩ := List.forall_mem_cons.mp hds
    have hlost : (decide (w.limit ≤ v) || nib (pack w v) (w.digits - 1) != 0) = decide (w.limit ≤ v * 10 + d) := by
      rcases Nat.lt_or_ge v w.limit with hlt | hge
      · rw [decide_eq_false (Nat.not_le.mpr hlt), Bool.false_or, Bool.eq_iff_iff, bne_iff_ne, decide_eq_true_eq]
        exact top_nib_pack_ne_zero_iff hlt hd
      · rw [decide_eq_true hge, decide_eq_true (by omega), Bool.true_or]
    rw [shiftAdd, shiftIn_pack w v hd, hlost, ih hds, List.foldl_cons]

theorem pack_zero (w : Width) : pack w 0 = 0 :=
  word_ext fun i _ => (nib_pack_of_lt w (by positivity)).trans (nib_zero i).symm

/-- The nibble form from the start: the packing of the digits' value, and whether that is 10^D or more. -/
theorem shiftAdd_eq (w : Width) {ds : List Nat} (hds : ∀ d ∈ ds, d ≤ 9) :
    shiftAdd w ds 0 false = (pack w (digitsValue ds), decide (w.limit ≤ digitsValue ds)) := by
  have hlimit : ¬ w.limit ≤ 0 := Nat.not_le.mpr (Nat.pow_pos (by norm_num))
  have h := shiftAdd_pack w hds 0
  rwa [pack_zero, decide_eq_false hlimit] at h

/-- Settles O38: both forms are the packing of the run's value, and signal a value of 10^D or more. -/
theorem shiftAndAddAgreesWithTheValue : Obligations.ShiftAndAddAgreesWithTheValue := by
  intro w ds hds
  rw [shiftAdd_eq w hds]
  refine ⟨decide_eq_true_iff, fun _ => rfl, ?_⟩
  rintro s q p rfl hq rfl hp
  simp only [← textValue_eq_digitsValue, decide_eq_true_eq, decide_eq_false_iff_not, Nat.not_le]
  rcases Nat.lt_or_ge (textValue 0 (digitRun q.ibuf)) s.width.limit with hlt | hge
  · cases hp.unique (answers_s2bcd_of_lt_limit hq hlt)
    simp [hlt]
  · cases hp.unique (answers_s2bcd_of_limit_le hq hge)
    simp [hge]

/-! ### The answers of BCD2S (R104) -/

section
variable {s : State} {q : Request} (hq : s.request = some q)
include hq

theorem execBcd2s_of_short_obuf (h : q.obuf.size < s.cap q) : execBcd2s s = .refused .hostDuty := by
  rcases execBcd2s_cases hq with ⟨-, he⟩ | ⟨hcap, -⟩ | ⟨hcap, -⟩ | ⟨hcap, -⟩
  · exact he
  all_goals omega

section
variable (hobuf : s.cap q ≤ q.obuf.size)
include hobuf

theorem answers_bcd2s_of_invalid (h : valid s.width (s.opA q) = false) :
    ∃ m, q.obuf.writeFrom 0 ((List.range (spoiledCount s.width (s.cap q))).map s.drawByte) = some m ∧
      Answers s .bcd2s { r := 0, err := .invalidDigit, aux := s.drawNat (spoiledCount s.width (s.cap q)), obuf := m } := by
  rcases execBcd2s_cases hq with ⟨hshort, -⟩ | ⟨-, -, m, hm, he⟩ | ⟨-, hvalid, -⟩ | ⟨-, hvalid, -⟩
  · omega
  · exact ⟨m, hm, _, he, rfl⟩
  all_goals simp [h] at hvalid

variable (hvalid : valid s.width (s.opA q) = true)
include hvalid

theorem answers_bcd2s_of_small_cap (h : s.cap q < s.width.digits + 1) :
    Answers s .bcd2s { r := 0, err := .overflow, aux := 0, obuf := q.obuf } := by
  rcases execBcd2s_cases hq with ⟨hshort, -⟩ | ⟨-, hinvalid, -⟩ | ⟨-, -, -, he⟩ | ⟨-, -, hcap, -⟩
  · omega
  · simp [hvalid] at hinvalid
  · exact ⟨_, he, rfl⟩
  · omega

theorem answers_bcd2s_of_sufficient_cap (h : s.width.digits + 1 ≤ s.cap q) :
    ∃ m, q.obuf.writeFrom 0 (digitText (s.opA q) (sig s.width (s.opA q)) ++ [terminator]) = some m ∧
      Answers s .bcd2s { r := 0, err := .none, aux := sig s.width (s.opA q), obuf := m } := by
  rcases execBcd2s_cases hq with ⟨hshort, -⟩ | ⟨-, hinvalid, -⟩ | ⟨-, -, hcap, -⟩ | ⟨-, -, -, m, hm, he⟩
  · omega
  · simp [hvalid] at hinvalid
  · omega
  · exact ⟨m, hm, _, he, rfl⟩

end

/-- What stands behind NONE: a valid A, and its significant digits and the terminator written. -/
theorem bcd2s_answer_of_none {p : Response} (hp : Answers s .bcd2s p) (he : p.err = .none) :
    valid s.width (s.opA q) = true ∧ p.aux = sig s.width (s.opA q) ∧
      q.obuf.writeFrom 0 (digitText (s.opA q) p.aux ++ [terminator]) = some p.obuf := by
  obtain ⟨t, ht, hresp⟩ := hp
  rw [exec] at ht
  rcases execBcd2s_cases hq with ⟨-, h⟩ | ⟨-, -, m, -, h⟩ | ⟨-, -, -, h⟩ | ⟨-, hvalid, -, m, hm, h⟩ <;>
    rw [h] at ht
  · cases ht
  · obtain ⟨rfl, -⟩ := accept_answer ht hresp; cases he
  · obtain ⟨rfl, -⟩ := accept_answer ht hresp; cases he
  · obtain ⟨rfl, -⟩ := accept_answer ht hresp
    exact ⟨hvalid, rfl, hm⟩

end

/-! ### The bytes of the text (R104) -/

section
variable {m m' : Memory} {x : Word} {n : Nat} (hw : m.wf = true)
  (h : m.writeFrom 0 (digitText x n ++ [terminator]) = some m')
include hw h

/-- A written text: digits from offset 0 on, the terminator after them, and the rest as it was. -/
theorem read_writeFrom_digitText (k : Nat) :
    m'.read k = if k < n then some (digitByte (nib x (n - 1 - k))) else if k = n then some terminator else m.read k := by
  obtain ⟨-, -, hread⟩ := Memory.writeFrom_spec hw h
  simp only [hread, List.length_append, digitText_length, List.length_singleton, Nat.zero_le, true_and, Nat.zero_add,
    Nat.sub_zero]
  rcases Nat.lt_trichotomy k n with hlt | rfl | hgt
  · rw [if_pos (by omega), if_pos hlt, digitText_terminated_get x n k hlt]
  · simp
  · rw [if_neg (by omega), if_neg (by omega), if_neg (by omega)]

theorem bytes_writeFrom_digitText : m'.bytes n = digitText x n := by
  obtain ⟨-, hw', -⟩ := Memory.writeFrom_spec hw h
  refine List.map_congr_left fun k hk => ?_
  rw [Memory.cellsRead_eq hw', read_writeFrom_digitText hw h, if_pos (List.mem_range.mp hk), Option.getD_some]

end

theorem digitByte_nib (x : Word) (i : Nat) : digitByte (nib x i) = BitVec.ofNat 8 (0x30 + x.toNat / 16 ^ i % 16) := by
  rw [digitByte, nib_toNat, asciiZero]

/-- Settles O39: one answer per case of R104, with the bytes that its run of writes leaves. -/
theorem bcdToTextWritesTheSignificantDigits : Obligations.BcdToTextWritesTheSignificantDigits := by
  refine ⟨hasOneWord_encode (i := .bcd2s) (fun _ => rfl) (by decide) (by decide), fun s q hq hw =>
    ⟨execBcd2s_of_short_obuf hq, fun hobuf hinvalid => ?invalid, answers_bcd2s_of_small_cap hq,
      fun hobuf hvalid hcap => ?text⟩⟩
  case invalid =>
    obtain ⟨m, hm, hanswer⟩ := answers_bcd2s_of_invalid hq hobuf hinvalid
    refine ⟨m, _, (Memory.writeFrom_spec hw hm).1, fun k hk => Memory.read_writeFrom_of_ge hw hm ?_, hanswer⟩
    rw [List.length_map, List.length_range, Nat.zero_add]
    exact hk
  case text =>
    obtain ⟨m, hm, hanswer⟩ := answers_bcd2s_of_sufficient_cap hq hobuf hvalid hcap
    refine ⟨m, (Memory.writeFrom_spec hw hm).1, fun k => ?_, hanswer⟩
    rw [read_writeFrom_digitText hw hm, digitByte_nib, terminator]

/-! ### The written text is minimal decimal text (R105) -/

theorem isDigitByte_of_mem_digitText {w : Width} {x : Word} (hx : valid w x = true) {n : Nat} (hn : n ≤ w.digits)
    {c : Byte} (hc : c ∈ digitText x n) : isDigitByte c = true := by
  obtain ⟨k, hk, rfl⟩ := List.mem_map.mp hc
  have hkn := List.mem_range.mp hk
  have h9 := (valid_iff w x).mp hx (n - 1 - k) (by omega)
  rw [isDigitByte_iff, digitByte_toNat]
  omega

theorem digitByte_eq_zero_char_iff (n : Nibble) : digitByte n = 0x30 ↔ n = 0 := by
  rw [← BitVec.toNat_inj, ← BitVec.toNat_inj, digitByte_toNat]
  change 0x30 + n.toNat = 0x30 ↔ n.toNat = 0
  omega

theorem textValue_significant (w : Width) (x : Word) : textValue 0 (digitText x (sig w x)) = val w x := by
  rw [textValue_digitText, digitSum_sig, Nat.zero_mul, Nat.zero_add]

/-- The significant digits begin with '0' only for the reading 0. -/
theorem head?_significant_eq_zero_char_iff (w : Width) (x : Word) :
    (digitText x (sig w x)).head? = some 0x30 ↔ val w x = 0 := by
  obtain ⟨hpos, -⟩ := sig_bounds w x
  rw [← nib_sig_sub_one_eq_zero_iff]
  conv_lhs => rw [← Nat.sub_add_cancel hpos, digitText_succ]
  rw [List.head?_cons, Option.some_inj, digitByte_eq_zero_char_iff]

/-- The reading 0 is written as the single digit 0. -/
theorem significant_of_val_eq_zero {w : Width} {x : Word} (h : val w x = 0) : digitText x (sig w x) = [0x30] := by
  have hnib := (nib_sig_sub_one_eq_zero_iff w x).mpr h
  obtain ⟨hone, -⟩ := (sig_head w x).resolve_left (not_not_intro hnib)
  rw [hone] at hnib ⊢
  rw [digitText_succ, hnib]
  rfl

/-- Settles O40: the bytes written are the significant digits, which read back as `val` and begin with its top digit. -/
theorem formattedTextIsMinimal : Obligations.FormattedTextIsMinimal := by
  intro s q p hq hw hp he
  obtain ⟨hvalid, haux, hm⟩ := bcd2s_answer_of_none hq hp he
  have hsig := (sig_bounds s.width (s.opA q)).2
  rw [bytes_writeFrom_digitText hw hm, haux]
  exact ⟨fun c hc => (isDigitByte_iff c).mp (isDigitByte_of_mem_digitText hvalid hsig hc),
    textValue_significant _ _, mt (head?_significant_eq_zero_char_iff _ _).mp, significant_of_val_eq_zero⟩

/-! ### The round trip (R106) -/

theorem Memory.bytes_ofBytes (bs : List Byte) : (Memory.ofBytes bs).bytes bs.length = bs := by
  apply List.ext_getElem? fun k => ?_
  rcases Nat.lt_or_ge k bs.length with hk | hk
  · rw [← Memory.read_ofBytes bs k, Memory.read_eq_some (by simpa using hk)]
    simp [Memory.bytes, hk]
  · rw [List.getElem?_eq_none hk, List.getElem?_eq_none (by simpa using hk)]

/-- Digit bytes followed by a NUL or by nothing are the digit run of their buffer. -/
theorem digitRun_ofBytes_append {bs rest : List Byte} (hbs : ∀ c ∈ bs, isDigitByte c = true)
    (hrest : rest = [] ∨ rest = [0x00]) : digitRun (Memory.ofBytes (bs ++ rest)) = bs := by
  have hstop : rest.takeWhile isDigitByte = [] := by rcases hrest with rfl | rfl <;> rfl
  rw [digitRun, Memory.ofBytes_size, Memory.bytes_ofBytes, List.takeWhile_append_of_pos hbs, hstop, List.append_nil]

/-- Settles O41: the digits written are the run that is parsed, and their value is v again. -/
theorem textRoundTrips : Obligations.TextRoundTrips := by
  intro s q v hq hv hA hcap hobuf hw
  have hvalid : valid s.width (s.opA q) = true := hA ▸ pack_valid _ _
  have hval : val s.width (s.opA q) = v := by rw [hA, val_pack, Nat.mod_eq_of_lt hv]
  obtain ⟨m, hm, hanswer⟩ := answers_bcd2s_of_sufficient_cap hq hobuf hvalid hcap
  refine ⟨_, hanswer, rfl, ?leadingZero, ?parsed⟩ <;> simp only [bytes_writeFrom_digitText hw hm]
  case leadingZero =>
    intro hhead
    have hzero := (head?_significant_eq_zero_char_iff _ _).mp hhead
    exact ⟨hval.symm.trans hzero, significant_of_val_eq_zero hzero⟩
  case parsed =>
    intro s' q' rest hwidth hq' hrest hibuf
    have hsig := (sig_bounds s.width (s.opA q)).2
    have hrun : digitRun q'.ibuf = digitText (s.opA q) (sig s.width (s.opA q)) := by
      rw [hibuf, digitRun_ofBytes_append (fun c => isDigitByte_of_mem_digitText hvalid hsig) hrest]
    have hvalue : textValue 0 (digitRun q'.ibuf) = v := by rw [hrun, textValue_significant, hval]
    refine ⟨_, answers_s2bcd_of_lt_limit hq' (by rw [hvalue, hwidth]; exact hv), ?_, rfl, ?_⟩
    · rw [hvalue, hwidth]
    · rw [hrun, digitText_length]

end Sys2Proof.Machine
end

section
/-! PROOFS. BCD Arithmetic (43_arithmetic.md): the answers of BADD and BMUL (R120, R121, R123), the addition loop (R122),
the digit accumulator and its normalisation (R124, R125), and the laws of both (R126). -/

namespace Sys2Proof.Machine

/-! ### The results on valid operands (R121, R123) -/

theorem overflowIf_eq_overflow_iff (c : Bool) : overflowIf c = .overflow ↔ c = true := by cases c <;> decide

theorem mulResult_of_lt_limit {w : Width} {a b : Word} (h : val w a * val w b < w.limit) :
    mulResult w a b = (pack w (val w a * val w b), .none) :=
  (mulResult_spec w a b).1 h

section
variable {w : Width} {a b : Word} (ha : valid w a = true) (hb : valid w b = true)
include ha hb

theorem addResult_eq :
    addResult w a b = (pack w (val w a + val w b), overflowIf (decide (w.limit ≤ val w a + val w b))) := by
  obtain ⟨hword, herr⟩ := addResult_spec w a b ha hb
  exact Prod.ext hword herr

theorem addResult_comm : addResult w a b = addResult w b a := by
  rw [addResult_eq ha hb, addResult_eq hb ha, Nat.add_comm]

theorem addResult_overflow_iff : (addResult w a b).2 = .overflow ↔ w.limit ≤ val w a + val w b := by
  rw [addResult_eq ha hb, overflowIf_eq_overflow_iff, decide_eq_true_eq]

theorem mulResult_of_limit_le (h : w.limit ≤ val w a * val w b) : mulResult w a b = (allOnes w, .overflow) :=
  (mulResult_spec w a b).2 h (val_mul_val_lt ha hb)

theorem mulResult_comm : mulResult w a b = mulResult w b a := by
  have hcomm := Nat.mul_comm (val w a) (val w b)
  rcases Nat.lt_or_ge (val w a * val w b) w.limit with hlt | hge
  · rw [mulResult_of_lt_limit hlt, mulResult_of_lt_limit (hcomm ▸ hlt), hcomm]
  · rw [mulResult_of_limit_le ha hb hge, mulResult_of_limit_le hb ha (hcomm ▸ hge)]

theorem mulResult_overflow_iff : (mulResult w a b).2 = .overflow ↔ w.limit ≤ val w a * val w b := by
  rcases Nat.lt_or_ge (val w a * val w b) w.limit with hlt | hge
  · simp [mulResult_of_lt_limit hlt, hlt]
  · simp [mulResult_of_limit_le ha hb hge, hge]

end

/-! ### The answers (R120) -/

theorem exec_badd (s : State) : exec .badd s = bcdOp s (addResult s.width) := rfl

theorem exec_bmul (s : State) : exec .bmul s = bcdOp s (mulResult s.width) := rfl

/-- Both arithmetic commands are the shared operation of R120, with a result that is symmetric on valid operands. -/
theorem exec_eq_bcdOp {i : Instr} (h : i = .badd ∨ i = .bmul) :
    ∃ g : Width → Word → Word → Word × ErrSignal, (∀ s, exec i s = bcdOp s (g s.width)) ∧
      ∀ w a b, valid w a = true → valid w b = true → g w a b = g w b a := by
  rcases h with rfl | rfl
  · exact ⟨addResult, exec_badd, fun _ _ _ => addResult_comm⟩
  · exact ⟨mulResult, exec_bmul, fun _ _ _ => mulResult_comm⟩

section
variable {s : State} {q : Request} (hq : s.request = some q) {i : Instr} {f : Word → Word → Word × ErrSignal}
  (hi : exec i s = bcdOp s f)
include hq hi

theorem answers_bcdOp_of_valid (ha : valid s.width (s.opA q) = true) (hb : valid s.width (s.opB q) = true) :
    Answers s i (wordResponse q (f (s.opA q) (s.opB q)).1 (f (s.opA q) (s.opB q)).2) :=
  ⟨_, hi.trans ((bcdOp_of_request hq f).trans (if_pos ⟨ha, hb⟩)), rfl⟩

theorem answers_bcdOp_of_invalid (h : valid s.width (s.opA q) = false ∨ valid s.width (s.opB q) = false) :
    Answers s i (wordResponse q s.drawWord .invalidDigit) := by
  have hboth : ¬ (valid s.width (s.opA q) = true ∧ valid s.width (s.opB q) = true) := by
    rintro ⟨ha, hb⟩
    rcases h with h | h
    · exact Bool.false_ne_true (h.symm.trans ha)
    · exact Bool.false_ne_true (h.symm.trans hb)
  exact ⟨_, hi.trans ((bcdOp_of_request hq f).trans (if_neg hboth)), rfl⟩

/-- An answer other than INVALID_DIGIT is the result on valid operands. -/
theorem bcdOp_answer_of_ne_invalidDigit {p : Response} (hp : Answers s i p) (he : p.err ≠ .invalidDigit) :
    valid s.width (s.opA q) = true ∧ valid s.width (s.opB q) = true ∧
      p = wordResponse q (f (s.opA q) (s.opB q)).1 (f (s.opA q) (s.opB q)).2 := by
  have hvalid : ¬ (valid s.width (s.opA q) = false ∨ valid s.width (s.opB q) = false) := fun h =>
    he (congrArg Response.err (hp.unique (answers_bcdOp_of_invalid hq hi h)))
  rw [not_or, Bool.not_eq_false, Bool.not_eq_false] at hvalid
  obtain ⟨ha, hb⟩ := hvalid
  exact ⟨ha, hb, hp.unique (answers_bcdOp_of_valid hq hi ha hb)⟩

end

/-- An operand with a base-16 digit above 9 below D is invalid (10_state.md R27). -/
theorem valid_eq_false {w : Width} {x : Word} {k : Nat} (hk : k < w.digits) (h : 9 < x.toNat / 16 ^ k % 16) :
    valid w x = false :=
  (Bool.not_eq_true' _).mp ((not_valid_iff w x).mpr ⟨k, hk, h⟩)

/-- Settles O42: the digit makes its operand invalid, and the validation of both operands comes first. -/
theorem arithmeticValidatesItsOperands : Obligations.ArithmeticValidatesItsOperands := by
  rintro s q i hq hi ⟨k, hk, hdigit⟩
  obtain ⟨g, hexec, -⟩ := exec_eq_bcdOp hi
  exact ⟨_, drawWord_lt s,
    answers_bcdOp_of_invalid hq (hexec s) (hdigit.imp (valid_eq_false hk) (valid_eq_false hk))⟩

/-- Settles O43: on valid operands the answer is the packing of the sum of their readings. -/
theorem additionIsDecimalAddition : Obligations.AdditionIsDecimalAddition := by
  refine ⟨hasOneWord_encode (i := .badd) (fun _ => rfl) (by decide) (by decide),
    fun s q hq => ⟨fun h => ⟨_, drawWord_lt s, answers_bcdOp_of_invalid hq (exec_badd s) h⟩, fun ha hb => ?_⟩⟩
  have hresult := addResult_eq ha hb
  refine ⟨_, _, ?fits, ?valid, ?reading, addResult_overflow_iff ha hb, addResult_ne_invalidDigit _ _ _,
    answers_bcdOp_of_valid hq (exec_badd s) ha hb⟩ <;> rw [hresult]
  case fits => exact pack_lt _ _
  case valid => exact pack_valid _ _
  case reading => exact val_pack _ _

/-- Settles O45: on valid operands the answer is the packing of the product of their readings, or the all-ones word. -/
theorem multiplicationIsDecimalMultiplication : Obligations.MultiplicationIsDecimalMultiplication := by
  refine ⟨hasOneWord_encode (i := .bmul) (fun _ => rfl) (by decide) (by decide),
    fun s q hq => ⟨fun h => ⟨_, drawWord_lt s, answers_bcdOp_of_invalid hq (exec_bmul s) h⟩, fun ha hb => ?_⟩⟩
  have hanswer := answers_bcdOp_of_valid hq (exec_bmul s) ha hb
  refine ⟨fun hlt => ?product, fun hge => ?overflow⟩
  case product =>
    rw [mulResult_of_lt_limit hlt] at hanswer
    exact ⟨_, pack_lt _ _, pack_valid _ _, (val_pack _ _).trans (Nat.mod_eq_of_lt hlt), hanswer⟩
  case overflow =>
    rw [mulResult_of_limit_le ha hb hge] at hanswer
    exact ⟨_, allOnes_toNat _, hanswer⟩

theorem valid_allOnes (w : Width) : valid w (allOnes w) = false := by cases w <;> decide

/-- Settles O49: an OVERFLOW is answered on valid operands only, with the all-ones word or with a packing. -/
theorem overflowWordsAreToldApart : Obligations.OverflowWordsAreToldApart := by
  intro s p hreq
  obtain ⟨q, hq⟩ := Option.ne_none_iff_exists'.mp hreq
  refine ⟨fun hp he => ?bmul, fun hp he => ?badd⟩ <;> have hne : p.err ≠ .invalidDigit := by rw [he]; decide
  case bmul =>
    obtain ⟨ha, hb, rfl⟩ := bcdOp_answer_of_ne_invalidDigit hq (exec_bmul s) hp hne
    rw [wordResponse_r, mulResult_of_limit_le ha hb ((mulResult_overflow_iff ha hb).mp he)]
    exact valid_allOnes _
  case badd =>
    obtain ⟨ha, hb, rfl⟩ := bcdOp_answer_of_ne_invalidDigit hq (exec_badd s) hp hne
    rw [wordResponse_r, addResult_eq ha hb]
    exact pack_valid _ _

/-! ### The addition loop (R122) -/

/-- The loop of R121 run over the nibbles below n: the digits and the carry make the sum, and stay digits and a carry. -/
theorem addFrom_digits {w : Width} {a b : Word} (ha : valid w a = true) (hb : valid w b = true) {n : Nat}
    (hn : n ≤ w.digits) :
    digitSum (addFrom a b n 0 0 0).1 n + (addFrom a b n 0 0 0).2 * 10 ^ n = digitSum a n + digitSum b n ∧
      (∀ i, i < n → (nib (addFrom a b n 0 0 0).1 i).toNat ≤ 9) ∧ (addFrom a b n 0 0 0).2 ≤ 1 := by
  rw [valid_iff] at ha hb
  have hD := w.digits_le
  obtain ⟨hcarry, hsum, hdigits, -⟩ := addFrom_spec a b n 0 0 0 (by omega) (by omega)
    (fun k hk => ha k (by omega)) (fun k hk => hb k (by omega)) (by simp) (by simp) (by simp)
  simp only [Nat.zero_add] at hsum hdigits
  exact ⟨hsum, hdigits, hcarry⟩

theorem addResult_overflow_iff_carry (w : Width) (a b : Word) :
    (addResult w a b).2 = .overflow ↔ (addFrom a b w.digits 0 0 0).2 = 1 := by
  rw [addResult, overflowIf_eq_overflow_iff, beq_iff_eq]

/-- Settles O44: the loop invariant at n, and at D the carry and the word of the sum. -/
theorem additionCarriesDigitByDigit : Obligations.AdditionCarriesDigitByDigit := by
  refine fun w a b ha hb => ⟨fun n hn => addFrom_digits ha hb hn, ?carry, ?word, ?bound⟩
  case carry => exact (addResult_overflow_iff_carry w a b).symm.trans (addResult_overflow_iff ha hb)
  case word => exact (addResult_spec w a b ha hb).1.trans (pack_mod w _).symm
  case bound =>
    have hA : val w a < 10 ^ w.digits := val_lt_limit ha
    have hB : val w b < 10 ^ w.digits := val_lt_limit hb
    omega

/-! ### The normalised accumulator (R125) -/

/-- BMUL signals OVERFLOW where a normalised cell from D on is nonzero. -/
theorem mulResult_overflow_iff_cell (w : Width) (a b : Word) :
    (mulResult w a b).2 = .overflow ↔
      ∃ k d, w.digits ≤ k ∧ (normalise 0 (mulAccumulate w a b)).1[k]? = some d ∧ d ≠ 0 := by
  have hany : (mulResult w a b).2 = .overflow ↔
      ((normalise 0 (mulAccumulate w a b)).1.drop w.digits).any (· ≠ 0) = true := by
    unfold mulResult
    dsimp only
    split
    case isTrue hcell => exact iff_of_true rfl hcell
    case isFalse hcell => exact iff_of_false nofun hcell
  rw [hany, List.any_eq_true]
  constructor
  · rintro ⟨d, hd, hne⟩
    obtain ⟨j, hj⟩ := List.mem_iff_getElem?.mp hd
    rw [List.getElem?_drop] at hj
    exact ⟨w.digits + j, d, Nat.le_add_right _ _, hj, of_decide_eq_true hne⟩
  · rintro ⟨k, d, hk, hd, hne⟩
    refine ⟨d, List.mem_iff_getElem?.mpr ⟨k - w.digits, ?_⟩, decide_eq_true hne⟩
    rwa [List.getElem?_drop, Nat.add_sub_cancel' hk]

/-- Settles O46: normalisation writes the product's decimal digits, and the product is below 10^(2D). -/
theorem normalisedAccumulatorHoldsTheProductDigits : Obligations.NormalisedAccumulatorHoldsTheProductDigits := by
  intro w a b ha hb ds
  obtain ⟨hlen, hsum⟩ := mulAccumulate_spec w a b
  obtain ⟨hds, hcarry, hdigits⟩ := normalise_spec 0 (mulAccumulate w a b)
  rw [hlen] at hds
  rw [hlen, hsum, Nat.add_zero] at hcarry hdigits
  refine ⟨hds, ?carry, hdigits, ?high, fun hnone => ?packed⟩
  case carry => rw [hcarry, Nat.div_eq_of_lt (val_mul_val_lt ha hb)]
  case high => exact (mulResult_overflow_iff_cell w a b).symm.trans (mulResult_overflow_iff ha hb)
  case packed =>
    have hlt : val w a * val w b < w.limit := by
      by_contra hge
      rw [mulResult_of_limit_le ha hb (Nat.not_lt.mp hge)] at hnone
      cases hnone
    rw [mulResult_of_lt_limit hlt]

/-! ### The size of the accumulator's cells (R124) -/

/-- One row of R123 adds to cell k the product of nibble i with nibble k - i, where the row reaches the cell. -/
theorem getElem?_mulRow (a b : Word) (i n : Nat) (acc : List Nat) (k : Nat) :
    (mulRow a b i (List.range n) acc)[k]? =
      acc[k]?.map (· + if i ≤ k ∧ k < i + n then (nib a i).toNat * (nib b (k - i)).toNat else 0) := by
  induction n with
  | zero => simp [mulRow, show ¬ (i ≤ k ∧ k < i) by omega]
  | succ n ih =>
    have hrow : mulRow a b i (List.range (n + 1)) acc =
        (mulRow a b i (List.range n) acc).modify (i + n) (· + (nib a i).toNat * (nib b n).toNat) := by
      simp [mulRow, List.range_succ]
    rw [hrow, List.getElem?_modify, ih, Option.map_eq_map, Option.map_map]
    congr 1
    funext x
    by_cases hk : i + n = k
    · simp [← hk]
    · simp [hk, show i ≤ k ∧ k < i + (n + 1) ↔ i ≤ k ∧ k < i + n by omega]

/-- After n rows at most min(n, k+1) of them have reached cell k, less those that end below it. -/
theorem mulRows_cell_le {w : Width} {a b : Word} (ha : valid w a = true) (hb : valid w b = true) {n : Nat}
    (hn : n ≤ w.digits) {k cell : Nat}
    (h : ((List.range n).foldl (fun acc i => mulRow a b i (List.range w.digits) acc)
      (List.replicate (2 * w.digits) 0))[k]? = some cell) :
    cell ≤ 81 * (min n (k + 1) - (k + 1 - w.digits)) := by
  rw [valid_iff] at ha hb
  induction n generalizing cell with
  | zero =>
    obtain ⟨-, rfl⟩ := List.mem_replicate.mp (List.mem_of_getElem? h)
    exact Nat.zero_le _
  | succ n ih =>
    rw [List.range_succ, List.foldl_append, List.foldl_cons, List.foldl_nil, getElem?_mulRow,
      Option.map_eq_some_iff] at h
    obtain ⟨before, hbefore, rfl⟩ := h
    have hle := ih (by omega) hbefore
    split
    · have hproduct : (nib a n).toNat * (nib b (k - n)).toNat ≤ 9 * 9 :=
        Nat.mul_le_mul (ha n (by omega)) (hb (k - n) (by omega))
      omega
    · omega

theorem mulAccumulate_cell_le {w : Width} {a b : Word} (ha : valid w a = true) (hb : valid w b = true) {k cell : Nat}
    (h : (mulAccumulate w a b)[k]? = some cell) :
    cell ≤ 81 * min (k + 1) (min (2 * w.digits - 1 - k) w.digits) := by
  have hle := mulRows_cell_le ha hb le_rfl h
  omega

/-- Cells of at most 81 m keep the carry within 9 m. -/
theorem normalise_carry_le {m c : Nat} {xs : List Nat} (hxs : ∀ x ∈ xs, x ≤ 81 * m) (hc : c ≤ 9 * m) :
    (normalise c xs).2 ≤ 9 * m := by
  induction xs generalizing c with
  | nil => exact hc
  | cons x xs ih =>
    obtain ⟨hx, hxs⟩ := List.forall_mem_cons.mp hxs
    exact ih hxs (by omega)

/-- Settles O47: at most 81 from each row that reaches the cell, and carries that 90 D divided by 10 bounds. -/
theorem accumulatorCellsStaySmall : Obligations.AccumulatorCellsStaySmall := by
  refine fun w a b ha hb => ⟨(mulAccumulate_spec w a b).1, fun k cell hcell => ?_⟩
  have hle := mulAccumulate_cell_le ha hb hcell
  have hcarry : (normalise 0 ((mulAccumulate w a b).take k)).2 ≤ 9 * w.digits := by
    refine normalise_carry_le (fun x hx => ?_) (Nat.zero_le _)
    obtain ⟨j, hj⟩ := List.mem_iff_getElem?.mp (List.mem_of_mem_take hx)
    have hx := mulAccumulate_cell_le ha hb hj
    omega
  exact ⟨hle, hcarry, by omega⟩

/-! ### The laws (R126) -/

theorem valid_zero (w : Width) : valid w 0 = true := by cases w <;> decide

theorem val_zero (w : Width) : val w 0 = 0 := by cases w <;> decide

/-- Zero fits every width. -/
theorem wordFits_zero (w : Width) : wordFits w 0 := wordFits_of_lt (by decide)

section
variable {w : Width} {x y : Word} (hx : wordFits w x) (hy : wordFits w y)
include hy

/-- A W-bit operand B is read as it is. -/
theorem opB_operandRequest (i : Instr) (x : Word) :
    ((State.resetAt w).present (operandRequest i x y)).opB (operandRequest i x y) = y := trunc_eq_self w y hy

include hx

theorem resultOf_bcdOp_of_valid {i : Instr} {g : Width → Word → Word → Word × ErrSignal}
    (hi : ∀ s, exec i s = bcdOp s (g s.width)) (vx : valid w x = true) (vy : valid w y = true) :
    resultOf w i x y = some (wordResponse (operandRequest i x y) (g w x y).1 (g w x y).2) := by
  have hA := opA_operandRequest hx y i
  have hB := opB_operandRequest hy i x
  have hres := resultOf_of_answers (answers_bcdOp_of_valid
    (State.present_request (State.resetAt w) (operandRequest i x y)) (hi _) (hA.symm ▸ vx) (hB.symm ▸ vy))
  rwa [hA, hB] at hres

theorem err_resultOf_bcdOp_of_invalid {i : Instr} {g : Width → Word → Word → Word × ErrSignal}
    (hi : ∀ s, exec i s = bcdOp s (g s.width)) (h : valid w x = false ∨ valid w y = false) :
    (resultOf w i x y).map (·.err) = some .invalidDigit := by
  have hA := opA_operandRequest hx y i
  have hB := opB_operandRequest hy i x
  exact congrArg (Option.map (·.err)) (resultOf_of_answers (answers_bcdOp_of_invalid
    (State.present_request (State.resetAt w) (operandRequest i x y)) (hi _) (by rw [hA, hB]; exact h)))

end

theorem addResult_zero {w : Width} {x : Word} (hx : wordFits w x) (vx : valid w x = true) :
    addResult w x 0 = (x, .none) := by
  have hlt := val_lt_limit vx
  rw [addResult_eq vx (valid_zero w), val_zero, Nat.add_zero, pack_val hx vx, decide_eq_false (Nat.not_le.mpr hlt)]
  rfl

theorem mulResult_zero (w : Width) (x : Word) : mulResult w x 0 = (0, .none) := by
  have hlt : val w x * val w 0 < w.limit := by
    rw [val_zero, Nat.mul_zero]
    exact Nat.pow_pos (by norm_num)
  rw [mulResult_of_lt_limit hlt, val_zero, Nat.mul_zero, pack_zero]

/-- Settles O48: the laws of the two results on valid operands, and the validation of both sides. -/
theorem arithmeticLaws : Obligations.ArithmeticLaws := by
  refine fun w x y hx hy => ⟨fun vx => ⟨?addZero, ?mulZero⟩, fun vx vy i hi => ?commute, fun vx i hi => ?invalid⟩
  case addZero =>
    rw [resultOf_bcdOp_of_valid hx (wordFits_zero w) exec_badd vx (valid_zero w), addResult_zero hx vx]
    rfl
  case mulZero =>
    rw [resultOf_bcdOp_of_valid hx (wordFits_zero w) exec_bmul vx (valid_zero w), mulResult_zero w x]
    rfl
  case commute =>
    obtain ⟨g, hexec, hcomm⟩ := exec_eq_bcdOp hi
    have hg := hcomm w x y vx vy
    exact ⟨_, _, resultOf_bcdOp_of_valid hx hy hexec vx vy, resultOf_bcdOp_of_valid hy hx hexec vy vx,
      congrArg Prod.fst hg, congrArg Prod.snd hg⟩
  case invalid =>
    obtain ⟨g, hexec, -⟩ := exec_eq_bcdOp hi
    exact ⟨err_resultOf_bcdOp_of_invalid hx hy hexec (.inl vx), err_resultOf_bcdOp_of_invalid hy hx hexec (.inr vx)⟩

end Sys2Proof.Machine
end

section
/-! PROOFS. The exceptions (60_exceptions.md): which requests are refused and what a run keeps of it (R144, R147), the
conditions of each error (R141), and what is delivered with it (R143). -/

namespace Sys2Proof.Machine

/-! ### Refusals (R147) -/

theorem not_indexInRange_of_codecOp_refused {s : State} {q : Request} (hq : s.request = some q) {i : Nibble}
    {f : Word → Word} {r : Refusal} (h : codecOp i f s = .refused r) : indexInRange s.width i = false := by
  refine decide_eq_false fun hi => ?_
  rw [codecOp_of_lt hq f hi] at h
  cases h

/-- A meaning refuses an index out of range, or BCD2S an OBUF below its capacity, and nothing else. -/
theorem refusal_of_exec {s : State} {q : Request} (hq : s.request = some q) {i : Instr} {r : Refusal}
    (h : exec i s = .refused r) :
    wellFormed s.width i = false ∨ (i = .bcd2s ∧ q.obuf.size < s.cap q ∧ r = .hostDuty) := by
  cases i with
  | dget k => rw [exec_dget] at h; exact .inl (not_indexInRange_of_codecOp_refused hq h)
  | dset k n => rw [exec_dset] at h; exact .inl (not_indexInRange_of_codecOp_refused hq h)
  | dval k => rw [exec_dval] at h; exact .inl (not_indexInRange_of_codecOp_refused hq h)
  | b2bcd => rw [exec, execB2bcd_of_request hq] at h; split at h <;> cases h
  | bcd2b => rw [exec, execBcd2b_of_request hq] at h; cases h
  | s2bcd => rw [exec, execS2bcd_of_request hq] at h; split at h <;> cases h
  | bcd2s =>
    rcases execBcd2s_cases hq with ⟨hshort, h'⟩ | ⟨-, -, m, -, h'⟩ | ⟨-, -, -, h'⟩ | ⟨-, -, -, m, -, h'⟩ <;>
      cases h'.symm.trans h
    exact .inr ⟨rfl, hshort, rfl⟩
  | badd => rw [exec_badd, bcdOp_of_request hq] at h; split at h <;> cases h
  | bmul => rw [exec_bmul, bcdOp_of_request hq] at h; split at h <;> cases h

/-- The closed set of reasons of R147: the decoder's, and the host's duty to BCD2S. -/
theorem step_present_refused_iff (s : State) (q : Request) (r : Refusal) :
    step (s.present q) = .refused r ↔
      (∃ d, decode s.width q.cmd = .error d ∧ r = .ofDecode d) ∨
      (decode s.width q.cmd = .ok .bcd2s ∧ q.obuf.size < s.cap q ∧ r = .hostDuty) := by
  have hq : (s.present q).request = some q := rfl
  constructor
  · intro h
    cases hd : decode s.width q.cmd with
    | error d =>
      rw [step_of_undecoded hq hd] at h
      cases h
      exact .inl ⟨d, rfl, rfl⟩
    | ok i =>
      rw [step_of_decoded hq hd] at h
      have hwf : wellFormed s.width i = true := ((decode_eq_ok _ _ _).mp hd).2
      rcases refusal_of_exec hq h with hill | ⟨rfl, hshort, hr⟩
      · exact absurd (hill.symm.trans hwf) (by decide)
      · exact .inr ⟨rfl, hshort, hr⟩
  · rintro (⟨d, hd, rfl⟩ | ⟨hd, hshort, rfl⟩)
    · exact step_of_undecoded hq hd
    · exact (step_of_decoded hq hd).trans (execBcd2s_of_short_obuf hq hshort)

/-! ### The refusal mark and the run (R144, R147, log 6) -/

/-- Serving a request leaves the mark clear exactly when it was clear and the request is accepted. -/
theorem serve_refusalMark_iff {s t : State} {q : Request} (h : serve s q = .next t) :
    t.refusalMark = false ↔ s.refusalMark = false ∧ Accepts s q := by
  rcases serve_cases s q with ⟨p, n, hstep, h'⟩ | ⟨r, hstep, h'⟩ <;> cases h'.symm.trans h
  · have haccepts : Accepts s q := ⟨_, p, hstep, rfl⟩
    simp [haccepts]
  · have hrefused : ¬ Accepts s q := by
      rintro ⟨u, p, hu, -⟩
      cases hstep.symm.trans hu
    simp [hrefused]

theorem serve_keeps_refusalMark {s t : State} {q : Request} (hs : s.refusalMark = true) (h : serve s q = .next t) :
    t.refusalMark = true := by
  rw [← Bool.not_eq_false, serve_refusalMark_iff h, hs]
  simp

/-- Settles O15: the refusals of the step are the closed set, serving one records it, and no served request clears the
mark. -/
theorem requestsAreServedOrRefused : Obligations.RequestsAreServedOrRefused := by
  refine ⟨fun s q => ⟨step_present_refused_iff s q, fun hne => ?answered, fun r hr => ?recorded⟩, fun s t qs => ?lasts⟩
  case answered =>
    obtain ⟨p, n, h⟩ | ⟨r, h⟩ := step_answers_or_refuses (State.present_request s q)
    · exact ⟨_, p, h, rfl⟩
    · exact absurd h (hne r)
  case recorded => exact ⟨_, serve_of_refused hr, rfl, rfl⟩
  case lasts => exact serveAll_keeps (P := fun u => u.refusalMark = true) serve_keeps_refusalMark

theorem cleanRun_cons_iff {s t : State} {q : Request} {qs : List Request} (h : serve s q = .next t) :
    CleanRun (q :: qs) s ↔ Accepts s q ∧ CleanRun qs t := by
  simp [CleanRun, h]

theorem exists_serve_next (s : State) (q : Request) : ∃ t, serve s q = .next t := by
  rcases serve_cases s q with ⟨p, n, -, h⟩ | ⟨r, -, h⟩ <;> exact ⟨_, h⟩

/-- Settles O16: by induction on the requests, each of which goes on and keeps the mark clear exactly when accepted. -/
theorem refusalMarkTellsTheRun : Obligations.RefusalMarkTellsTheRun := by
  intro qs
  induction qs with
  | nil => exact fun s => ⟨s, rfl, by simp [CleanRun]⟩
  | cons q qs ih =>
    intro s
    obtain ⟨t, ht⟩ := exists_serve_next s q
    obtain ⟨u, hu, hmark⟩ := ih t
    refine ⟨u, by rw [serveAll, ht]; exact hu, ?_⟩
    rw [hmark, serve_refusalMark_iff ht, cleanRun_cons_iff ht, and_assoc]

/-! ### Every answer of an operation (R141, R143)

The cases of each operation, read off a response it answers. -/

section
variable {s : State} {q : Request} (hq : s.request = some q) {p : Response}
include hq

theorem b2bcd_answer (hp : Answers s .b2bcd p) :
    (s.width.limit ≤ (s.opA q).toNat ∧ p = wordResponse q s.drawWord .overflow) ∨
      ((s.opA q).toNat < s.width.limit ∧ p = wordResponse q (pack s.width (s.opA q).toNat) .none) := by
  rcases Nat.lt_or_ge (s.opA q).toNat s.width.limit with hlt | hge
  · exact .inr ⟨hlt, hp.unique (answers_b2bcd_of_lt_limit hq hlt)⟩
  · exact .inl ⟨hge, hp.unique (answers_b2bcd_of_limit_le hq hge)⟩

theorem s2bcd_answer (hp : Answers s .s2bcd p) :
    (s.width.limit ≤ textValue 0 (digitRun q.ibuf) ∧
      p = { r := s.drawWord, err := .overflow, aux := (digitRun q.ibuf).length, obuf := q.obuf }) ∨
    (textValue 0 (digitRun q.ibuf) < s.width.limit ∧
      p = { r := pack s.width (textValue 0 (digitRun q.ibuf)), err := .none, aux := (digitRun q.ibuf).length,
            obuf := q.obuf }) := by
  rcases Nat.lt_or_ge (textValue 0 (digitRun q.ibuf)) s.width.limit with hlt | hge
  · exact .inr ⟨hlt, hp.unique (answers_s2bcd_of_lt_limit hq hlt)⟩
  · exact .inl ⟨hge, hp.unique (answers_s2bcd_of_limit_le hq hge)⟩

/-- The signal of BCD2S is decided by A and CAP; on INVALID_DIGIT min(CAP, D + 1) bytes are written, on OVERFLOW none. -/
theorem bcd2s_answer (hp : Answers s .bcd2s p) :
    p.r = 0 ∧
    ((valid s.width (s.opA q) = false ∧ p.err = .invalidDigit ∧
        ∃ bs, bs.length = min (s.cap q) (s.width.digits + 1) ∧ q.obuf.writeFrom 0 bs = some p.obuf) ∨
      (valid s.width (s.opA q) = true ∧ s.cap q < s.width.digits + 1 ∧
        p.err = .overflow ∧ p.aux = 0 ∧ p.obuf = q.obuf) ∨
      (valid s.width (s.opA q) = true ∧ s.width.digits + 1 ≤ s.cap q ∧ p.err = .none)) := by
  obtain ⟨t, ht, hresp⟩ := hp
  rcases execBcd2s_cases hq with ⟨-, h⟩ | ⟨-, hvalid, m, hm, h⟩ | ⟨-, hvalid, hcap, h⟩ | ⟨-, hvalid, hcap, m, -, h⟩ <;>
    cases h.symm.trans ht <;> cases hresp
  · exact ⟨rfl, .inl ⟨hvalid, rfl, _, by simp [spoiledCount], hm⟩⟩
  · exact ⟨rfl, .inr (.inl ⟨hvalid, hcap, rfl, rfl, rfl⟩)⟩
  · exact ⟨rfl, .inr (.inr ⟨hvalid, hcap, rfl⟩)⟩

/-- A word operation answers a W-bit word, AUX 0 and OBUF as it was supplied, whatever its signal (10_state.md R25). -/
theorem word_answer {i : Instr} (hi : i ≠ .s2bcd) (hi' : i ≠ .bcd2s) (hp : Answers s i p) :
    wordFits s.width p.r ∧ p.aux = 0 ∧ p.obuf = q.obuf := by
  obtain ⟨t, ht, hresp⟩ := hp
  obtain ⟨r, e, n, hr, rfl⟩ := exec_wordAnswer hq hi hi' ht
  cases hresp
  exact ⟨hr, rfl, rfl⟩

/-- The signal of an arithmetic command: the validation first, then what its result says on valid operands. -/
theorem bcdOp_err_iff {i : Instr} {f : Word → Word → Word × ErrSignal} (hi : exec i s = bcdOp s f)
    (hf : ∀ a b, (f a b).2 ≠ .invalidDigit) {v : Nat}
    (hover : valid s.width (s.opA q) = true → valid s.width (s.opB q) = true →
      ((f (s.opA q) (s.opB q)).2 = .overflow ↔ s.width.limit ≤ v)) (hp : Answers s i p) :
    (p.err = .invalidDigit ↔ valid s.width (s.opA q) = false ∨ valid s.width (s.opB q) = false) ∧
      (p.err = .overflow ↔
        (valid s.width (s.opA q) = true ∧ valid s.width (s.opB q) = true) ∧ s.width.limit ≤ v) := by
  by_cases hv : valid s.width (s.opA q) = true ∧ valid s.width (s.opB q) = true
  · obtain ⟨ha, hb⟩ := hv
    cases hp.unique (answers_bcdOp_of_valid hq hi ha hb)
    simp [ha, hb, hf, hover ha hb]
  · have hinvalid : valid s.width (s.opA q) = false ∨ valid s.width (s.opB q) = false := by
      rwa [not_and_or, Bool.not_eq_true, Bool.not_eq_true] at hv
    cases hp.unique (answers_bcdOp_of_invalid hq hi hinvalid)
    simp [hinvalid, hv]

end

/-! ### The conditions of each error (R141) -/

/-- Settles O51: the cases of each operation, the codec's by R80. -/
theorem errorConditions : Obligations.ErrorConditions := by
  intro s q p hq
  have codec : ∀ j, (∃ k n, j = .dget k ∨ j = .dset k n ∨ j = .dval k) → Answers s j p → p.err = .none :=
    fun j hj hp => (codecNeverSignalsAnError s s q q j p hj hq hq rfl rfl hp).2.1
  refine ⟨fun k n hp => ?codec, fun hp => ?b2bcd, fun hp => ?bcd2b, fun hp => ?s2bcd, fun hp => ?bcd2s,
    bcdOp_err_iff hq (exec_badd s) (addResult_ne_invalidDigit _) addResult_overflow_iff,
    bcdOp_err_iff hq (exec_bmul s) (mulResult_ne_invalidDigit _) mulResult_overflow_iff⟩
  case codec =>
    rcases hp with hp | hp | hp
    · exact codec _ ⟨k, n, .inl rfl⟩ hp
    · exact codec _ ⟨k, n, .inr (.inl rfl)⟩ hp
    · exact codec _ ⟨k, n, .inr (.inr rfl)⟩ hp
  case b2bcd => rcases b2bcd_answer hq hp with ⟨h, rfl⟩ | ⟨h, rfl⟩ <;> simp [h]
  case bcd2b =>
    cases hp.unique (answers_bcd2b hq)
    exact ⟨by simp [invalidIf_eq_invalidDigit_iff], invalidIf_ne_overflow _⟩
  case s2bcd => rcases s2bcd_answer hq hp with ⟨h, rfl⟩ | ⟨h, rfl⟩ <;> simp [h]
  case bcd2s =>
    obtain ⟨-, ⟨hv, he, -⟩ | ⟨hv, hcap, he, -⟩ | ⟨hv, hcap, he⟩⟩ := bcd2s_answer hq hp
    · simp [hv, he]
    · simp [hv, he, hcap]
    · simp [hv, he, Nat.not_lt.mpr hcap]

/-! ### What is delivered with each error (R143) -/

/-- Packing drops a multiple of 10^D: the wrapped sum of 43_arithmetic.md R121. -/
theorem pack_sub_limit {w : Width} {v : Nat} (h : w.limit ≤ v) : pack w (v - w.limit) = pack w v := by
  rw [← pack_mod w v, Nat.mod_eq_sub_mod h, pack_mod]

/-- Settles O52: AUX and OBUF of the word operations are those of every answer of theirs; the words and the text output
are those of the case that signals. -/
theorem resultsDeliveredWithAnError : Obligations.ResultsDeliveredWithAnError := by
  intro s q p hq hw
  refine ⟨fun hp _ => word_answer hq (by decide) (by decide) hp, fun hp _ => ?bcd2b, fun hp he => ?s2bcd,
    fun hp he => ?bcd2sInvalid, fun hp he => ?bcd2sOverflow,
    fun hp _ => word_answer hq (by decide) (by decide) hp, fun hp he => ?baddOverflow,
    fun hp _ => word_answer hq (by decide) (by decide) hp, fun hp he => ?bmulOverflow⟩
  case bcd2b =>
    cases hp.unique (answers_bcd2b hq)
    exact ⟨toNat_ofNat_val _ _, rfl, rfl⟩
  case s2bcd =>
    rcases s2bcd_answer hq hp with ⟨-, rfl⟩ | ⟨-, rfl⟩
    · exact ⟨drawWord_lt s, rfl, rfl⟩
    · cases he
  case bcd2sInvalid =>
    obtain ⟨hr, ⟨-, -, bs, hlen, hm⟩ | ⟨-, -, he', -⟩ | ⟨-, -, he'⟩⟩ := bcd2s_answer hq hp
    · exact ⟨hr, fun k hk => Memory.read_writeFrom_of_ge hw hm (by omega)⟩
    · cases he.symm.trans he'
    · cases he.symm.trans he'
  case bcd2sOverflow =>
    obtain ⟨hr, ⟨-, he', -⟩ | ⟨-, -, -, haux, hobuf⟩ | ⟨-, -, he'⟩⟩ := bcd2s_answer hq hp
    · cases he.symm.trans he'
    · exact ⟨hr, haux, hobuf⟩
    · cases he.symm.trans he'
  case baddOverflow =>
    obtain ⟨ha, hb, rfl⟩ := bcdOp_answer_of_ne_invalidDigit hq (exec_badd s) hp (by rw [he]; decide)
    refine ⟨?_, rfl, rfl⟩
    rw [wordResponse_r, addResult_eq ha hb, pack_sub_limit ((addResult_overflow_iff ha hb).mp he)]
  case bmulOverflow =>
    obtain ⟨ha, hb, rfl⟩ := bcdOp_answer_of_ne_invalidDigit hq (exec_bmul s) hp (by rw [he]; decide)
    refine ⟨?_, rfl, rfl⟩
    rw [wordResponse_r, mulResult_of_limit_le ha hb ((mulResult_overflow_iff ha hb).mp he), allOnes_toNat]

end Sys2Proof.Machine
end

section
/-! PROOFS. Reset (70_reset_and_hazards.md R160): no response exists at the start of a run or after a reset, its reads
fault, and a reset changes nothing that a later request depends on. -/

namespace Sys2Proof.Machine

theorem readResponse_of_no_response {s : State} (h : s.response = none) : s.readResponse = .error .noResponse := by
  simp [State.readResponse, h]

/-- Each read of a field is a read of the response, so it faults as that does. -/
theorem reads_fault_of_no_response {s : State} (h : s.response = none) :
    s.readR = .error .noResponse ∧ s.readErr = .error .noResponse ∧ s.readAux = .error .noResponse ∧
      s.readObuf = .error .noResponse := by
  have hread := readResponse_of_no_response h
  exact ⟨congrArg (Except.map _) hread, congrArg (Except.map _) hread, congrArg (Except.map _) hread,
    congrArg (Except.map _) hread⟩

theorem coreReset_of_no_request {s : State} (h : s.request = none) :
    s.coreReset = some { s with response := none } := by
  simp [State.coreReset, h]

/-- Settles O10: a state without a response has nothing to read, a reset removes the response alone, and a response
depends on the width, the place in the sequence of free values and the request only. -/
theorem resetLeavesNoResponse : Obligations.ResetLeavesNoResponse := by
  refine ⟨fun w => ?start, fun s t h => ?afterReset, fun s h => ⟨_, coreReset_of_no_request h⟩⟩
  case start => exact ⟨rfl, rfl, rfl, rfl, reads_fault_of_no_response (State.resetAt_response w)⟩
  case afterReset =>
    obtain rfl := coreReset_eq_some h
    obtain ⟨hr, herr, haux, hobuf⟩ := reads_fault_of_no_response (s := { s with response := none }) rfl
    exact ⟨rfl, rfl, hr, herr, haux, hobuf, responseTo_determined rfl rfl⟩

end Sys2Proof.Machine
end
